-- ==== Sys2Proof/Word.lean ====
section
/-! DEFINITION. The widths of the block's values (00_scope.md R6, 10_state.md R14). -/

namespace Sys2Proof

/-- A byte of the frame buffer or of the whitening table. -/
abbrev Byte := BitVec 8

/-- A checksum value, and the width of `LEN` and of the command word's immediate. -/
abbrev Half := BitVec 16

/-- The command word, the result register `RES`, and the `STATUS` view. -/
abbrev Word := BitVec 32

end Sys2Proof
end

