-- ==== Sys2Proof/Syntax.lean ====
section
/-! DEFINITION. The eight commands of the block, one constructor per row of spec/opcode_table.json
(30_encoding.md R44 to R46). -/

namespace Sys2Proof

/-- A decoded command, with its operands as the fields of the command word (R45). -/
inductive Instr where
  /-- `CLR`: empty the frame buffer (43_buffer_access.md R92). -/
  | clr
  /-- `PSH byte`: append one byte (R93). -/
  | psh (byte : Byte)
  /-- `RDB idx`: read the byte at index `idx` (R95). -/
  | rdb (idx : Half)
  /-- `BFX sb, nb`: extract `nb` bits from stream bit `sb` (40_bitfield_extract.md R61). -/
  | bfx (sb : Half) (nb : BitVec 6)
  /-- `WHT`, alias `DWH`: whiten or dewhiten in place (41_whitening.md R70). -/
  | wht
  /-- `CRC`: checksum of the frame buffer (42_checksum.md R83). -/
  | crc
  /-- `CKV val`: check the frame buffer against `val` (R84). -/
  | ckv (val : Half)
  /-- `FCK`: check a frame that ends in its checksum (R87). -/
  | fck
  deriving DecidableEq, Repr

end Sys2Proof
end

