-- ==== Sys2Proof/WellFormed.lean ====
section
/-! DEFINITION. Which commands a legal word stands for. Every operand but one may take every value of its field;
`num_bits` of `BFX` may not exceed 32 (30_encoding.md R50). -/

namespace Sys2Proof

/-- Some legal command word decodes to this command. -/
def Instr.wellFormed : Instr → Bool
  | .clr => true
  | .psh _ => true
  | .rdb _ => true
  | .bfx _ nb => decide (nb.toNat ≤ 32)
  | .wht => true
  | .crc => true
  | .ckv _ => true
  | .fck => true

end Sys2Proof
end

