-- ==== Sys2Proof/Decode.lean ====
section
/-! DEFINITION. Command words to commands and back: 30_encoding.md R42 to R50, R55. Decoding is total on 32-bit
words, reads no state, and rejects by name. -/

namespace Sys2Proof

/-- Why a command word is illegal: the classes of 93_implementation_defined.md U3. All of them report `E_ILL`. -/
inductive Illegal where
  /-- Opcode 0x0 or 0x9 to 0xF (R48). -/
  | reservedOpcode
  /-- A non-zero bit in a field the command's format does not use (R49). -/
  | reservedField
  /-- `BFX` with `nb` 33 to 63 (R50). -/
  | widthAbove32
  deriving DecidableEq, Repr

/-- `op = CW[31:28]` (R43). -/
def opOf (w : Word) : BitVec 4 := w.extractLsb' 28 4

/-- `nb = CW[27:22]` (R43). -/
def nbOf (w : Word) : BitVec 6 := w.extractLsb' 22 6

/-- `rsv = CW[21:16]` (R43). -/
def rsvOf (w : Word) : BitVec 6 := w.extractLsb' 16 6

/-- `imm = CW[15:0]` (R43). -/
def immOf (w : Word) : Half := w.extractLsb' 0 16

/-- The reserved opcodes 0x0 and 0x9 to 0xF (R48). -/
def reservedOp (op : BitVec 4) : Bool := decide (op.toNat = 0 ∨ 9 ≤ op.toNat)

/-- The opcodes of format N: `CLR`, `WHT`, `CRC`, `FCK` (R44). -/
def formatN (op : BitVec 4) : Bool := decide (op.toNat = 1 ∨ op.toNat = 5 ∨ op.toNat = 6 ∨ op.toNat = 8)

/-- Checks (1) to (6) of R47, in its order; `none` where the word is legal. -/
def illegalOf (w : Word) : Option Illegal :=
  if reservedOp (opOf w) then some .reservedOpcode
  else if rsvOf w ≠ 0 then some .reservedField
  else if (opOf w).toNat ≠ 4 ∧ nbOf w ≠ 0 then some .reservedField
  else if formatN (opOf w) = true ∧ immOf w ≠ 0 then some .reservedField
  else if (opOf w).toNat = 2 ∧ (immOf w).extractLsb' 8 8 ≠ 0 then some .reservedField
  else if (opOf w).toNat = 4 ∧ 32 < (nbOf w).toNat then some .widthAbove32
  else none

/-- The command of row `op` with its operand fields (R45, R46). -/
def commandOf (w : Word) : Option Instr :=
  match (opOf w).toNat with
  | 1 => some .clr
  | 2 => some (.psh ((immOf w).extractLsb' 0 8))
  | 3 => some (.rdb (immOf w))
  | 4 => some (.bfx (immOf w) (nbOf w))
  | 5 => some .wht
  | 6 => some .crc
  | 7 => some (.ckv (immOf w))
  | 8 => some .fck
  | _ => none

/-- R47: every 32-bit word is one of the eight commands or illegal. -/
def decode (w : Word) : Except Illegal Instr :=
  match illegalOf w, commandOf w with
  | some why, _ => .error why
  | none, some i => .ok i
  | none, none => .error .reservedOpcode

/-- A command word laid out from its fields, `rsv` zero (R43). -/
def wordOf (op : BitVec 4) (nb : BitVec 6) (imm : Half) : Word := op ++ nb ++ (0 : BitVec 6) ++ imm

/-- The word of a command (R44, R46, R53). -/
def encode : Instr → Word
  | .clr => wordOf 1 0 0
  | .psh byte => wordOf 2 0 (byte.setWidth 16)
  | .rdb idx => wordOf 3 0 idx
  | .bfx sb nb => wordOf 4 nb sb
  | .wht => wordOf 5 0 0
  | .crc => wordOf 6 0 0
  | .ckv val => wordOf 7 0 val
  | .fck => wordOf 8 0 0

/-- The `mask` of the command's row in the opcode map (R46). -/
def rowMask : Instr → Word
  | .clr => 0xFFFFFFFF
  | .psh _ => 0xFFFFFF00
  | .rdb _ => 0xFFFF0000
  | .bfx _ _ => 0xF03F0000
  | .wht => 0xFFFFFFFF
  | .crc => 0xFFFFFFFF
  | .ckv _ => 0xFFFF0000
  | .fck => 0xFFFFFFFF

/-- The `match` of the command's row in the opcode map (R46). -/
def rowMatch : Instr → Word
  | .clr => 0x10000000
  | .psh _ => 0x20000000
  | .rdb _ => 0x30000000
  | .bfx _ _ => 0x40000000
  | .wht => 0x50000000
  | .crc => 0x60000000
  | .ckv _ => 0x70000000
  | .fck => 0x80000000

/-- The instruction the decoder reads from the `nbits` low bits of `w`, every higher bit of the word being 0; the
command word is one 32-bit number with no byte order (R42, log 15). -/
def decodeTableWord (nbits w : Nat) : Option Instr :=
  match decode (BitVec.ofNat 32 (w % 2 ^ nbits)) with
  | .ok i => some i
  | .error _ => none

end Sys2Proof
end

