-- ==== Sys2Proof/Config.lean ====
section
/-! DEFINITION. The five configuration values of the block (00_scope.md R5, 10_state.md R23, R24): one record, the
open ones left open (log 1). -/

namespace Sys2Proof

/-- The configuration record of R5. `MAX_LEN` is the length of the table `wt` (log 1). -/
structure Config where
  /-- `BUF_CAP`, the capacity of the frame buffer in bytes. -/
  bufCap : Nat
  /-- `WT`, the whitening table. -/
  wt : List Byte
  /-- `CRC_POLY`, the checksum polynomial constant. -/
  crcPoly : Half
  /-- `CRC_INIT`, the checksum accumulator's start value. -/
  crcInit : Half
  deriving DecidableEq, Repr

/-- `MAX_LEN`: the whitening table has exactly `MAX_LEN` bytes (R5). -/
def Config.maxLen (c : Config) : Nat := c.wt.length

/-- The bounds R5 sets on `BUF_CAP`. -/
abbrev Config.Valid (c : Config) : Prop := 1 ≤ c.bufCap ∧ c.bufCap ≤ 8191

/-- FREE VALUE (log 1): `BUF_CAP` less one, an open parameter (92_eei_decisions.md D2). -/
opaque Config.openCapacity : Fin 8191

/-- FREE VALUE (log 1): the bytes of the whitening table, an open parameter (92_eei_decisions.md D11). -/
opaque Config.openTable : List Byte

/-- The configuration of the block the machine is built with: `BUF_CAP` and `WT` open, the two checksum constants as
42_checksum.md R76, R77 and R81 state them (UNVERIFIED literals, log 2). -/
def Config.block : Config where
  bufCap := Config.openCapacity.val + 1
  wt := Config.openTable
  crcPoly := 0x8005
  crcInit := 0xFFFF

/-- The TEST profile of R7, used by the vectors of 95_test_vectors.md and by no rule. -/
def Config.testProfile : Config where
  bufCap := 64
  wt := [0xFF, 0xE1, 0x1D, 0x9A, 0xED, 0x85, 0x33, 0x24, 0xEA, 0x7A, 0xD2, 0x39, 0x70, 0x97, 0x57, 0x0A] ++
    [0x54, 0x7D, 0x2D, 0xD8, 0x6D, 0x0D, 0xBA, 0x8F, 0x67, 0x59, 0xC7, 0xA2, 0xBF, 0x34, 0xCA, 0x18]
  crcPoly := 0x8005
  crcInit := 0xFFFF

end Sys2Proof
end

