-- ==== Sys2Proof/Machine/State.lean ====
section
/-! DEFINITION. The state of the block (10_state.md R14), what the host will do to it (70_reset_and_hazards.md R128),
the reasons a step can stop, and the state after reset (R27). -/

namespace Sys2Proof.Machine

/-- The registers the host may read between commands (10_state.md R25). -/
inductive HostReg where
  | res
  | acc
  | err
  | len
  | status
  deriving DecidableEq, Repr

/-- The host's interactions with the block, all three of 70_reset_and_hazards.md R128. -/
inductive HostMove where
  /-- Issue one command word. -/
  | issue (cw : Word)
  /-- Apply reset (R113). -/
  | applyReset
  /-- Read one register. -/
  | read (r : HostReg)
  deriving DecidableEq, Repr

/-- The error codes a command can end with (60_exceptions.md R99). -/
inductive ErrCode where
  /-- `E_NONE`: the command succeeded. -/
  | none
  /-- `E_ILL`: the command word is illegal. -/
  | ill
  /-- `E_RANGE`: `BFX` or `RDB` reaches beyond the valid buffer. -/
  | range
  /-- `E_TOOLONG`: `WHT` with `LEN > MAX_LEN`. -/
  | tooLong
  /-- `E_FULL`: `PSH` with `LEN = BUF_CAP`. -/
  | full
  /-- `E_SHORT`: `FCK` with `LEN < 2`. -/
  | short
  deriving DecidableEq, Repr

/-- Buffer memory: (index, byte) cells, indices strictly rising. An index that is not listed holds no value (R17), so
no cell equals what an unlisted index reads as (log 7). -/
abbrev Memory := List Host.Cell

/-- Why the machine stops. The spec's own errors are no faults: they are next states (60_exceptions.md R101). -/
inductive Fault where
  /-- A byte below `LEN` that holds no value was to be read (R17, R31). Raised by `RDB`, `BFX`, `WHT`, `CRC`, `CKV`,
  `FCK` in states no run reaches. Safe (log 8). -/
  | noValue
  /-- A store outside the domain of `MemWrite` (20_memory.md R32). Raised by `PSH` where `LEN > BUF_CAP`, in states no
  run reaches. Safe (log 9). -/
  | noSuchByte
  deriving DecidableEq, Repr

/-- Why the model gives no meaning. -/
inductive Refusal where
  /-- The instruction of this mnemonic has no meaning yet. Raised by an arm of `exec` alone; no arm does so. Safe. -/
  | notModelled (mnemonic : String)
  deriving DecidableEq, Repr

/-- The five items of R14, and the host's side of R20, R25 and R128. -/
structure State where
  /-- `BUF`: the bytes that hold a value (R15, R17). -/
  mem : Memory
  /-- `LEN`: the number of valid bytes (R16). -/
  len : Half
  /-- `RES`: the result register (R18). -/
  res : Word
  /-- `ACC`: the accept flag (R22). -/
  acc : BitVec 1
  /-- `ERR`: the error code of the last command (R21). -/
  err : BitVec 4
  /-- MODEL'S OWN (log 3): the host's interactions still to come, in order; host state (R20, R24). -/
  moves : List HostMove
  /-- MODEL'S OWN (log 5): what the host's last register read gave back (R128). -/
  readback : Option Word
  deriving DecidableEq, Repr

/-- The state right after reset (R27, 70_reset_and_hazards.md R114); the host has handed over nothing yet (log 3). -/
def State.reset : State where
  mem := []
  len := 0
  res := 0
  acc := 0
  err := 0
  moves := []
  readback := none

/-- Replace the buffer's cells. -/
def State.setMem (s : State) (m : Memory) : State := { s with mem := m }
/-- `LEN <- v`. -/
def State.setLen (s : State) (v : Half) : State := { s with len := v }
/-- `RES <- v`. -/
def State.setRes (s : State) (v : Word) : State := { s with res := v }
/-- `ACC <- v`. -/
def State.setAcc (s : State) (v : BitVec 1) : State := { s with acc := v }
/-- `ERR <- v`. -/
def State.setErr (s : State) (v : BitVec 4) : State := { s with err := v }
/-- Replace what the host will do. -/
def State.setMoves (s : State) (ms : List HostMove) : State := { s with moves := ms }
/-- Record what a host read gave back. -/
def State.setReadback (s : State) (v : Option Word) : State := { s with readback := v }

end Sys2Proof.Machine
end

