-- ==== Sys2Proof/Machine/Ops.lean ====
section
/-! DEFINITION. The named operations over the buffer and the registers: cells, `MemRead`, `MemWrite` (20_memory.md R31,
R32), the frame `FB` (00_scope.md R11), ending a command with and without an error (R10), and reset (R114). -/

namespace Sys2Proof.Machine

/-- The byte an index of `BUF` holds, if it holds one (10_state.md R17). -/
def Memory.read : Memory → Nat → Option Byte
  | [], _ => none
  | (x, b) :: m, a => if a = x then some b else Memory.read m a

/-- `BUF[a] <- v`, kept in rising order of the index. -/
def Memory.write : Memory → Nat → Byte → Memory
  | [], a, v => [(a, v)]
  | (x, b) :: m, a, v =>
    if a < x then (a, v) :: (x, b) :: m
    else if a = x then (a, v) :: m
    else (x, b) :: Memory.write m a v

/-- The canonical form: indices strictly rising. A listed index holds a value, an unlisted one does not, so no entry
can equal what an unlisted index reads as. -/
def Memory.wf : Memory → Bool
  | [] => true
  | [_] => true
  | (x, _) :: (y, b) :: m => decide (x < y) && Memory.wf ((y, b) :: m)

/-- The bytes at indices `a` to `a + n - 1`, if every one of them holds a value. -/
def Memory.readBytes (m : Memory) (a : Nat) : Nat → Option (List Byte)
  | 0 => some []
  | n + 1 =>
    match Memory.read m a, Memory.readBytes m (a + 1) n with
    | some b, some bs => some (b :: bs)
    | _, _ => none

/-- Store a byte sequence from index `a` on. -/
def Memory.writeBytes (m : Memory) (a : Nat) : List Byte → Memory
  | [] => m
  | b :: bs => Memory.writeBytes (Memory.write m a b) (a + 1) bs

/-- The natural number whose big-endian byte representation is `B` (R30, R33). -/
def bytesToNat (B : List Byte) : Nat := B.foldl (fun v b => v * 256 + b.toNat) 0

/-- The `n` bytes of an 8n-bit value, most significant first: byte `k` is `v[8(n-k)-1 : 8(n-k-1)]` (R32). -/
def bytesOfBits (n : Nat) (v : BitVec (8 * n)) : List Byte :=
  (List.range n).map fun k => v.extractLsb' (8 * (n - k - 1)) 8

/-- `MemRead(addr, n)` (R31): defined for `n ≥ 1` and `addr + n ≤ LEN`, first byte most significant. -/
def memRead (s : State) (addr n : Nat) : Option (BitVec (8 * n)) :=
  if 1 ≤ n ∧ addr + n ≤ s.len.toNat then
    (Memory.readBytes s.mem addr n).map fun bs => BitVec.ofNat (8 * n) (bytesToNat bs)
  else none

/-- `MemWrite(addr, n, v)` (R32): defined for `addr + n ≤ LEN`, or `addr = LEN`, `n = 1` and `LEN < BUF_CAP`. -/
def memWrite (c : Config) (s : State) (addr n : Nat) (v : BitVec (8 * n)) : Option State :=
  if 1 ≤ n ∧ (addr + n ≤ s.len.toNat ∨ (addr = s.len.toNat ∧ n = 1 ∧ s.len.toNat < c.bufCap)) then
    some (s.setMem (Memory.writeBytes s.mem addr (bytesOfBits n v)))
  else none

/-- `FB = BUF[0..LEN)` (00_scope.md R11); none only if a byte below `LEN` holds no value (log 8). -/
def frame (s : State) : Option (List Byte) := Memory.readBytes s.mem 0 s.len.toNat

/-- The code of an error in `ERR` (60_exceptions.md R99). -/
def errBits : ErrCode → BitVec 4
  | .none => 0
  | .ill => 1
  | .range => 2
  | .tooLong => 3
  | .full => 4
  | .short => 5

/-- What a step of the machine answers. -/
abbrev Result := Host.Outcome State Fault Refusal

/-- `raise e` (00_scope.md R10; 60_exceptions.md R101, R102): the block's whole exception entry is the one write
`ERR <- e`; there is nothing to return from (R107). -/
def raiseError (e : ErrCode) (s : State) : Result := .next (s.setErr (errBits e))

/-- A command that ends without `raise` performs `ERR <- E_NONE` (R10). -/
def succeed (s : State) : Result := .next (s.setErr (errBits .none))

/-- End a command whose result is a value the model may not have: success with it, or the fault that says why it is not
there (log 8, log 9). -/
def finish (result : Option State) (why : Fault) : Result :=
  match result with
  | some s => succeed s
  | none => .fault why

/-- Run a command on the frame `FB`; every byte below `LEN` must hold a value (log 8). -/
def withFrame (s : State) (k : List Byte → Result) : Result :=
  match frame s with
  | some B => k B
  | none => .fault .noValue

/-- Reset (70_reset_and_hazards.md R113, R114): the block's five items take their reset values; the host's own fields
are not the block's to reset (log 6). -/
def resetBlock (s : State) : State :=
  { State.reset with moves := s.moves, readback := s.readback }

end Sys2Proof.Machine
end

