-- ==== Sys2Proof/Machine/Operands.lean ====
section
/-! DEFINITION. How a command's operands and results are read: unsigned, unscaled immediates (30_encoding.md R45),
stream bit numbering (00_scope.md R8, 20_memory.md R30), zero-extended results (10_state.md R18). -/

namespace Sys2Proof.Machine

/-- `sb`, the `start_bit` of `BFX`: `zext(CW[15:0])` (R45). -/
abbrev startBit (sb : Half) : Nat := sb.toNat

/-- `nb`, the `num_bits` of `BFX`: `CW[27:22]` (R45). -/
abbrev numBits (nb : BitVec 6) : Nat := nb.toNat

/-- `idx`, the byte index of `RDB`: `zext(CW[15:0])` (R45). -/
abbrev byteIndex (idx : Half) : Nat := idx.toNat

/-- `zext_32(v)`: how a byte or a checksum enters `RES` (R18). -/
abbrev zext32 {w : Nat} (v : BitVec w) : Word := v.setWidth 32

/-- Byte `j` of a byte sequence. Used at `j < len(B)` only; the 0 beyond the end is never reached (R9, R59). -/
def byteOf (B : List Byte) (j : Nat) : Byte := B.getD j 0

/-- Stream bit `p` of a byte sequence: bit `7 - p mod 8` of byte `p div 8` (R8, R30). -/
def streamBit (B : List Byte) (p : Nat) : Bool := (byteOf B (p / 8)).getLsbD (7 - p % 8)

end Sys2Proof.Machine
end

