-- ==== Sys2Proof/Machine/Flags.lean ====
section
/-! DEFINITION. The accept flag, the packed `STATUS` view and the host's register reads (10_state.md R22, R25, R127). -/

namespace Sys2Proof.Machine

/-- The value of `ACC` for a verdict: 1 for equal, 0 for different (R22, 42_checksum.md R82, R84). -/
def accBit (equal : Bool) : BitVec 1 := if equal then 1 else 0

/-- `STATUS` (R127): `LEN` in bits 31:16, zero in 15:5, `ACC` in bit 4, `ERR` in 3:0. -/
def statusOf (s : State) : Word := s.len ++ (0 : BitVec 11) ++ s.acc ++ s.err

/-- What the host gets back when it reads a register (R25, R128), zero-extended to 32 bits (log 5). -/
def hostRead (s : State) : HostReg → Word
  | .res => s.res
  | .acc => zext32 s.acc
  | .err => zext32 s.err
  | .len => zext32 s.len
  | .status => statusOf s

end Sys2Proof.Machine
end

