-- ==== Sys2Proof/Machine/BitField.lean ====
section
/-! DEFINITION. The bit-field extractor: the function `extract` and the command `BFX` (40_bitfield_extract.md R57 to
R64). -/

namespace Sys2Proof.Machine

/-- The value `v` of R57's loop after its first `n` iterations, which read stream bits `start` to `start + n - 1`. -/
def extractLoop (B : List Byte) (start : Nat) : Nat → Word
  | 0 => 0
  | n + 1 => (extractLoop B start n <<< 1) ||| (if streamBit B (start + n) then 1 else 0)

/-- `extract(B, s, n)` (R57), with a value exactly on its domain `n ≤ 32`, `s + n ≤ 8 * len(B)` (R59). -/
def extract (B : List Byte) (start n : Nat) : Option Word :=
  if n ≤ 32 ∧ start + n ≤ 8 * B.length then some (extractLoop B start n) else none

/-- The closed form of R58, equal to `extract` on its domain. -/
def extractClosed (B : List Byte) (start n : Nat) : Nat :=
  (bytesToNat B / 2 ^ (8 * B.length - start - n)) % 2 ^ n

/-- `BFX sb, nb` (R61), `E_RANGE` where the field runs past the last valid bit (R63). A width above 32 has no legal
word and is `E_ILL` before anything else is looked at (30_encoding.md R50, 60_exceptions.md R105; log 11). -/
def execBfx (sb : Half) (nb : BitVec 6) (s : State) : Result :=
  if 32 < numBits nb then raiseError .ill s
  else if 8 * s.len.toNat < startBit sb + numBits nb then raiseError .range s
  else withFrame s fun B => finish ((extract B (startBit sb) (numBits nb)).map s.setRes) .noValue

end Sys2Proof.Machine
end

