-- ==== Sys2Proof/Machine/BufferAccess.lean ====
section
/-! DEFINITION. `CLR`, `PSH` and `RDB` (43_buffer_access.md R91 to R97). -/

namespace Sys2Proof.Machine

/-- Empty the buffer: `LEN <- 0`, and no byte of `BUF` holds a value any more (R92, 10_state.md R17; log 7). -/
def emptyBuffer (s : State) : State := (s.setLen 0).setMem []

/-- Append one byte (R93), or `E_FULL` at capacity (R94). -/
def pushByte (c : Config) (byte : Byte) (s : State) : Result :=
  if s.len.toNat = c.bufCap then raiseError .full s
  else finish ((memWrite c s s.len.toNat 1 byte).map fun s' => s'.setLen (s.len + 1)) .noSuchByte

/-- `CLR` (R92). -/
def execClr (s : State) : Result := succeed (emptyBuffer s)

/-- `PSH byte` (R93, R94). -/
def execPsh (byte : Byte) (s : State) : Result := pushByte Config.block byte s

/-- `RDB idx` (R95), `E_RANGE` at or beyond `LEN` (R96). -/
def execRdb (idx : Half) (s : State) : Result :=
  if s.len.toNat ≤ byteIndex idx then raiseError .range s
  else finish ((memRead s (byteIndex idx) 1).map fun b => s.setRes (zext32 b)) .noValue

end Sys2Proof.Machine
end

