-- ==== Sys2Proof/Machine/Checksum.lean ====
section
/-! DEFINITION. The integrity checksum: `crc_bit`, `checksum16`, the acceptance rule and the commands `CRC`, `CKV`, `FCK`
(42_checksum.md R76 to R89). -/

namespace Sys2Proof.Machine

/-- `crc_bit(acc, d)` (R76): the top bit before the shift, xor the data bit, decides whether the shifted accumulator is
xored with `CRC_POLY`. -/
def crcBit (c : Config) (acc : Half) (d : Bool) : Half :=
  if (acc.getLsbD 15) ^^ d then (acc <<< 1) ^^^ c.crcPoly else acc <<< 1

/-- One byte of `checksum16`: its bits from 7 down to 0 (R77, R78). -/
def crcByte (c : Config) (acc : Half) (b : Byte) : Half :=
  [7, 6, 5, 4, 3, 2, 1, 0].foldl (fun a k => crcBit c a (b.getLsbD k)) acc

/-- `checksum16` continued from an accumulator (R79 (b)). -/
def crcFrom (c : Config) (acc : Half) (B : List Byte) : Half := B.foldl (crcByte c) acc

/-- `checksum16(B)` (R77). -/
def checksum16 (c : Config) (B : List Byte) : Half := crcFrom c c.crcInit B

/-- `accept(D, tx)` (R82): all 16 bits compared. -/
def accept (c : Config) (D : List Byte) (tx : Half) : Bool := decide (checksum16 c D = tx)

/-- The transmitted checksum from its two bytes, high byte first (R86). -/
def txOf {w : Nat} (hi lo : BitVec w) : Half := (hi.setWidth 16 <<< 8) ||| lo.setWidth 16

/-- What `CKV` and `FCK` do with the data and the transmitted checksum (R84, R87). -/
def reportCheck (c : Config) (D : List Byte) (tx : Half) (s : State) : Result :=
  succeed ((s.setRes (zext32 (checksum16 c D))).setAcc (accBit (accept c D tx)))

/-- Compute the checksum of the frame buffer (R83). -/
def computeChecksum (c : Config) (s : State) : Result :=
  withFrame s fun B => succeed (s.setRes (zext32 (checksum16 c B)))

/-- Check the frame buffer against a value the host supplies (R84). -/
def checkValue (c : Config) (val : Half) (s : State) : Result :=
  withFrame s fun B => reportCheck c B val s

/-- Check a frame that carries its checksum in its last two bytes (R86, R87); `E_SHORT` below two bytes (R88). -/
def checkTrailing (c : Config) (s : State) : Result :=
  if s.len.toNat < 2 then raiseError .short s
  else
    match memRead s (s.len.toNat - 2) 1, memRead s (s.len.toNat - 1) 1, Memory.readBytes s.mem 0 (s.len.toNat - 2) with
    | some hi, some lo, some D => reportCheck c D (txOf hi lo) s
    | _, _, _ => .fault .noValue

/-- `CRC` (R83). -/
def execCrc (s : State) : Result := computeChecksum Config.block s

/-- `CKV val` (R84). -/
def execCkv (val : Half) (s : State) : Result := checkValue Config.block val s

/-- `FCK` (R87, R88). -/
def execFck (s : State) : Result := checkTrailing Config.block s

end Sys2Proof.Machine
end

