-- ==== Sys2Proof/Machine/Whitening.lean ====
section
/-! DEFINITION. The whitening codec: the function `whiten` and the command `WHT` (41_whitening.md R67 to R73). -/

namespace Sys2Proof.Machine

/-- `whiten(B)` (R67): byte `i` xor `WT[i]`, from index 0; not defined for `len(B) > MAX_LEN`. -/
def whiten (c : Config) (B : List Byte) : Option (List Byte) :=
  if B.length ≤ c.maxLen then some (List.zipWith (fun b t => b ^^^ t) B c.wt) else none

/-- Whiten the frame buffer in place (R70); `E_TOOLONG` and nothing written where `LEN > MAX_LEN` (R71). -/
def whitenBuffer (c : Config) (s : State) : Result :=
  if c.maxLen < s.len.toNat then raiseError .tooLong s
  else withFrame s fun B => finish ((whiten c B).map fun B' => s.setMem (Memory.writeBytes s.mem 0 B')) .noValue

/-- `WHT` (R70, R71). -/
def execWht (s : State) : Result := whitenBuffer Config.block s

end Sys2Proof.Machine
end

