-- ==== Sys2Proof/Machine/Dispatch.lean ====
section
/-! DEFINITION. One arm per command (30_encoding.md R46). -/

namespace Sys2Proof.Machine

def exec (i : Instr) (s : State) : Host.Outcome State Fault Refusal :=
  match i with
  | .clr => Sys2Proof.Machine.execClr s
  | .psh byte => Sys2Proof.Machine.execPsh byte s
  | .rdb idx => Sys2Proof.Machine.execRdb idx s
  | .bfx sb nb => Sys2Proof.Machine.execBfx sb nb s
  | .wht => Sys2Proof.Machine.execWht s
  | .crc => Sys2Proof.Machine.execCrc s
  | .ckv val => Sys2Proof.Machine.execCkv val s
  | .fck => Sys2Proof.Machine.execFck s

end Sys2Proof.Machine
end

