-- ==== Sys2Proof/Machine/Issue.lean ====
section
/-! DEFINITION. What the block does at each of the host's interactions (70_reset_and_hazards.md R128), and command
lists run one after the other (10_state.md R20). -/

namespace Sys2Proof.Machine

/-- Execute one command word: the decoded command, or `E_ILL` decided from the word alone (30_encoding.md R47, R48;
60_exceptions.md R105). -/
def issueWord (cw : Word) (s : State) : Result :=
  match decode cw with
  | .ok i => exec i s
  | .error _ => raiseError .ill s

/-- One host interaction (R128), already taken off the host's list. -/
def perform (m : HostMove) (s : State) : Result :=
  match m with
  | .issue cw => issueWord cw s
  | .applyReset => .next (resetBlock s)
  | .read r => .next (s.setReadback (some (hostRead s r)))

/-- Take the host's next interaction off its list and perform it. With none left the block waits and nothing changes
(R115, R126; log 4). -/
def stepHost (s : State) : Result :=
  match s.moves with
  | [] => .next s
  | m :: rest => perform m (s.setMoves rest)

/-- Commands executed one after the other, each after the previous one has completed (10_state.md R13, R20). -/
def execList : List Instr → State → Result
  | [], s => .next s
  | i :: is, s =>
    match exec i s with
    | .next s' => execList is s'
    | .fault r => .fault r
    | .refused r => .refused r

/-- Put a command word at the head of what the host will do (log 3). -/
def presentWord (cw : Word) (s : State) : State := s.setMoves (.issue cw :: s.moves)

end Sys2Proof.Machine
end

