-- ==== Sys2Proof/Machine/Step.lean ====
section
/-! DEFINITION. One step of the machine: one host interaction (70_reset_and_hazards.md R128). -/

namespace Sys2Proof.Machine

/-- One atomic step (10_state.md R13, 20_memory.md R37). -/
def step : State → Host.Outcome State Fault Refusal := stepHost

/-- The state in which the host's next interaction is to issue the word whose `nbits` low bits are those of `w` and
whose other bits are 0 (log 3, log 15). -/
def State.withFetchWord (s : State) (nbits w : Nat) : State := presentWord (BitVec.ofNat 32 (w % 2 ^ nbits)) s

end Sys2Proof.Machine
end

