-- ==== Sys2Proof/Machine/Assembler.lean ====
section
/-! DEFINITION. The assembler and the disassembler (30_encoding.md R53 to R55). What the rules leave open of the text's
layout is log 14. -/

namespace Sys2Proof.Machine

/-- One line of assembly with its operands as written (R53), the two pseudo-instructions among them (R54). -/
inductive AsmLine where
  | clr
  | psh (byte : Nat)
  | rdb (idx : Nat)
  | bfx (sb nb : Nat)
  | wht
  | crc
  | ckv (val : Nat)
  | fck
  /-- `DWH`, the source's second name for `WHT` (R54 (a)). -/
  | dwh
  /-- `LDF b0, ..., b(n-1)`, load frame (R54 (b)). -/
  | ldf (bytes : List Nat)
  deriving DecidableEq, Repr

/-- `LDF` as commands: `CLR`, then one `PSH` per byte (R54 (b)). -/
def loadFrame (B : List Byte) : List Instr := .clr :: B.map .psh

/-- The commands of a line; an operand outside its range is refused, not truncated (R53). -/
def expandLine : AsmLine → Option (List Instr)
  | .clr => some [.clr]
  | .psh byte => if byte ≤ 255 then some [.psh (BitVec.ofNat 8 byte)] else none
  | .rdb idx => if idx ≤ 65535 then some [.rdb (BitVec.ofNat 16 idx)] else none
  | .bfx sb nb => if sb ≤ 65535 ∧ nb ≤ 32 then some [.bfx (BitVec.ofNat 16 sb) (BitVec.ofNat 6 nb)] else none
  | .wht => some [.wht]
  | .crc => some [.crc]
  | .ckv val => if val ≤ 65535 then some [.ckv (BitVec.ofNat 16 val)] else none
  | .fck => some [.fck]
  | .dwh => some [.wht]
  | .ldf bytes =>
    if bytes.all (fun b => decide (b ≤ 255)) = true then some (loadFrame (bytes.map (BitVec.ofNat 8))) else none

/-- The command words of a line (R53). -/
def assemble (l : AsmLine) : Option (List Word) := (expandLine l).map (List.map encode)

/-- The line of a command; `WHT` is the canonical spelling of its word (R55). -/
def lineOf : Instr → AsmLine
  | .clr => .clr
  | .psh byte => .psh byte.toNat
  | .rdb idx => .rdb idx.toNat
  | .bfx sb nb => .bfx sb.toNat nb.toNat
  | .wht => .wht
  | .crc => .crc
  | .ckv val => .ckv val.toNat
  | .fck => .fck

/-- What disassembly answers: a line, or the word itself where it is illegal (R55). -/
inductive Listing where
  | command (l : AsmLine)
  | rawWord (w : Word)
  deriving DecidableEq, Repr

/-- Disassembly (R55). -/
def disassemble (w : Word) : Listing :=
  match decode w with
  | .ok i => .command (lineOf i)
  | .error _ => .rawWord w

/-- A space or a tab. -/
def isBlank (c : Char) : Bool := c = ' ' || c = '\t'

/-- Drop the blanks at both ends. -/
def trimBlanks (cs : List Char) : List Char := ((cs.dropWhile isBlank).reverse.dropWhile isBlank).reverse

/-- `;` starts a comment (R53). -/
def dropComment (cs : List Char) : List Char := cs.takeWhile fun c => c ≠ ';'

/-- The pieces of an operand list between its commas. -/
def commaFields : List Char → List (List Char)
  | [] => [[]]
  | c :: cs =>
    if c = ',' then [] :: commaFields cs
    else
      match commaFields cs with
      | [] => [[c]]
      | f :: fs => (c :: f) :: fs

/-- The value of a digit in a base up to 16. -/
def digitValue (base : Nat) (c : Char) : Option Nat :=
  let v :=
    if 48 ≤ c.toNat ∧ c.toNat ≤ 57 then c.toNat - 48
    else if 65 ≤ c.toNat ∧ c.toNat ≤ 70 then c.toNat - 55
    else if 97 ≤ c.toNat ∧ c.toNat ≤ 102 then c.toNat - 87
    else 16
  if v < base then some v else none

/-- A digit string read on from `acc`. -/
def digitsValue (base : Nat) (acc : Nat) : List Char → Option Nat
  | [] => some acc
  | c :: cs =>
    match digitValue base c with
    | some d => digitsValue base (acc * base + d) cs
    | none => none

/-- A number: decimal or `0x` hex (R53). -/
def parseNumber : List Char → Option Nat
  | [] => none
  | '0' :: 'x' :: d :: ds => digitsValue 16 0 (d :: ds)
  | d :: ds => digitsValue 10 0 (d :: ds)

/-- The operands after the mnemonic. -/
def parseOperands (cs : List Char) : Option (List Nat) :=
  if trimBlanks cs = [] then some [] else (commaFields cs).mapM fun f => parseNumber (trimBlanks f)

/-- A mnemonic with its operands, in the order of R53 and R54. -/
def parseCommand : List Char → List Nat → Option AsmLine
  | ['C', 'L', 'R'], [] => some .clr
  | ['P', 'S', 'H'], [b] => some (.psh b)
  | ['R', 'D', 'B'], [idx] => some (.rdb idx)
  | ['B', 'F', 'X'], [sb, nb] => some (.bfx sb nb)
  | ['W', 'H', 'T'], [] => some .wht
  | ['C', 'R', 'C'], [] => some .crc
  | ['C', 'K', 'V'], [val] => some (.ckv val)
  | ['F', 'C', 'K'], [] => some .fck
  | ['D', 'W', 'H'], [] => some .dwh
  | ['L', 'D', 'F'], bs => some (.ldf bs)
  | _, _ => none

/-- The words of one line of text (R53); a line with nothing but blanks and a comment has none (log 14). -/
def assembleText (cs : List Char) : Option (List Word) :=
  let body := trimBlanks (dropComment cs)
  if body = [] then some []
  else
    match parseOperands (body.dropWhile fun c => !isBlank c) with
    | some ops => (parseCommand (body.takeWhile fun c => !isBlank c) ops).bind assemble
    | none => none

/-- Operands in decimal, between commas (log 14). -/
def printOperands : List Nat → List Char
  | [] => []
  | [n] => Nat.toDigits 10 n
  | n :: m :: ns => Nat.toDigits 10 n ++ [',', ' '] ++ printOperands (m :: ns)

/-- A line as text (R53). -/
def printLine : AsmLine → List Char
  | .clr => ['C', 'L', 'R']
  | .psh byte => ['P', 'S', 'H', ' '] ++ printOperands [byte]
  | .rdb idx => ['R', 'D', 'B', ' '] ++ printOperands [idx]
  | .bfx sb nb => ['B', 'F', 'X', ' '] ++ printOperands [sb, nb]
  | .wht => ['W', 'H', 'T']
  | .crc => ['C', 'R', 'C']
  | .ckv val => ['C', 'K', 'V', ' '] ++ printOperands [val]
  | .fck => ['F', 'C', 'K']
  | .dwh => ['D', 'W', 'H']
  | .ldf bytes => ['L', 'D', 'F', ' '] ++ printOperands bytes

/-- The eight hexadecimal digits of a word. -/
def hexDigits (w : Word) : List Char :=
  (List.range 8).map fun k => Nat.digitChar (w.toNat / 16 ^ (7 - k) % 16)

/-- A disassembled word as text; an illegal one as `.word 0x........` (R55). -/
def printListing : Listing → List Char
  | .command l => printLine l
  | .rawWord w => ['.', 'w', 'o', 'r', 'd', ' ', '0', 'x'] ++ hexDigits w

end Sys2Proof.Machine
end

