-- ==== Sys2Proof/Safety.lean ====
section
/-! DEFINITION. What claims about runs are stated in: the invariant of the block's state, and what the spec calls a run
gone wrong (93_implementation_defined.md U1, U3). -/

namespace Sys2Proof.Machine

/-- The relation between the block's items in every state a run reaches: exactly the bytes below `LEN` hold a value
(10_state.md R16, R17), in canonical form; `LEN` is at most `BUF_CAP` (R16); `ERR` holds a code of 60_exceptions.md
R99 (R21: values 6 to 15 are never produced). -/
structure Inv (s : State) : Prop where
  cells : s.mem.map Prod.fst = List.range s.len.toNat
  capacity : s.len.toNat ≤ Config.block.bufCap
  code : s.err.toNat ≤ 5

/-- The byte an index of `BUF` holds, if it holds one (R17). -/
def byteAt (s : State) (i : Nat) : Option Byte := Memory.read s.mem i

/-- The two states differ at most in `ERR` (60_exceptions.md R102). -/
def SameButErr (s t : State) : Prop := t = s.setErr t.err

/-- The host's next interaction issues a command that the spec counts as a run gone wrong: an illegal word (93 U3) or
a `BFX` outside the domain of `extract` (93 U1). The block answers with an error code all the same (log 10). -/
def GoesWrong (s : State) : Prop :=
  ∃ cw rest, s.moves = .issue cw :: rest ∧
    ((∃ why, decode cw = .error why) ∨
      ∃ sb nb, decode cw = .ok (.bfx sb nb) ∧ 8 * s.len.toNat < startBit sb + numBits nb)

/-- The read commands of 20_memory.md R37. -/
def isReadCommand : Instr → Bool
  | .clr => false
  | .psh _ => false
  | .rdb _ => true
  | .bfx _ _ => true
  | .wht => false
  | .crc => true
  | .ckv _ => true
  | .fck => true

/-- The frame passed its last check: `ERR` is read before `ACC` (70_reset_and_hazards.md R121). -/
def FrameAccepted (s : State) : Prop := s.err = errBits .none ∧ s.acc = 1

/-- The end of a run: the host has issued its last command and hands over nothing more (R126). -/
def Ended (s : State) : Prop := s.moves = []

end Sys2Proof.Machine
end

