-- ==== Sys2Proof/Certificates/Slice0/Obligations.lean ====
section
/-! DEFINITION. The statements for the provers. Each docstring names the rules it formalises. `byteAt s i` is what index
`i` of `BUF` reads as, `frame s` is `FB`; `E_NONE` is 0, `E_ILL` 1, `E_RANGE` 2, `E_TOOLONG` 3, `E_FULL` 4, `E_SHORT` 5. -/

open Sys2Proof Sys2Proof.Machine

/-! ### Encoding -/

/-- R47: what every 32-bit word decodes to, the checks in the rule's order; the fields are bits 31:28, 27:22, 21:16 and
15:0 of the word (R43), read here as numbers. -/
def Obligations.DecodeChecksInOrder : Prop :=
  ∀ (w : Word) (op nb rsv imm : Nat), op = w.toNat / 2 ^ 28 → nb = w.toNat / 2 ^ 22 % 64 →
    rsv = w.toNat / 2 ^ 16 % 64 → imm = w.toNat % 2 ^ 16 →
    (op = 0 ∨ 9 ≤ op → decode w = .error .reservedOpcode) ∧
    (1 ≤ op → op ≤ 8 →
      rsv ≠ 0 ∨ (op ≠ 4 ∧ nb ≠ 0) ∨ ((op = 1 ∨ op = 5 ∨ op = 6 ∨ op = 8) ∧ imm ≠ 0) ∨ (op = 2 ∧ 256 ≤ imm) →
      decode w = .error .reservedField) ∧
    (op = 4 → rsv = 0 → 32 < nb → decode w = .error .widthAbove32) ∧
    (op = 1 → nb = 0 → rsv = 0 → imm = 0 → decode w = .ok .clr) ∧
    (op = 2 → nb = 0 → rsv = 0 → imm < 256 → decode w = .ok (.psh (BitVec.ofNat 8 imm))) ∧
    (op = 3 → nb = 0 → rsv = 0 → decode w = .ok (.rdb (BitVec.ofNat 16 imm))) ∧
    (op = 4 → nb ≤ 32 → rsv = 0 → decode w = .ok (.bfx (BitVec.ofNat 16 imm) (BitVec.ofNat 6 nb))) ∧
    (op = 5 → nb = 0 → rsv = 0 → imm = 0 → decode w = .ok .wht) ∧
    (op = 6 → nb = 0 → rsv = 0 → imm = 0 → decode w = .ok .crc) ∧
    (op = 7 → nb = 0 → rsv = 0 → decode w = .ok (.ckv (BitVec.ofNat 16 imm))) ∧
    (op = 8 → nb = 0 → rsv = 0 → imm = 0 → decode w = .ok .fck)

/-- R48, R49, R50: a word with a reserved opcode, with a non-zero bit in a field its format does not use, or with `op` 4
and `nb` above 32, is illegal, and issuing it sets `ERR` to `E_ILL` and changes nothing else. -/
def Obligations.IllegalWordsOnlySetErr : Prop :=
  ∀ (s : State) (w : Word) (rest : List HostMove) (op nb rsv imm : Nat), op = w.toNat / 2 ^ 28 →
    nb = w.toNat / 2 ^ 22 % 64 → rsv = w.toNat / 2 ^ 16 % 64 → imm = w.toNat % 2 ^ 16 →
    (op = 0 ∨ 9 ≤ op) ∨ (rsv ≠ 0 ∨ (op ≠ 4 ∧ nb ≠ 0) ∨ ((op = 1 ∨ op = 5 ∨ op = 6 ∨ op = 8) ∧ imm ≠ 0) ∨
      (op = 2 ∧ 256 ≤ imm)) ∨ (op = 4 ∧ 32 < nb) →
    (∃ why, decode w = .error why) ∧
    (s.moves = .issue w :: rest → step s = .next ((s.setMoves rest).setErr 1))

/-- R55: encoding then decoding a legal command returns it, for every operand value. -/
def Obligations.DecodeOfEncode : Prop :=
  ∀ i : Instr, i.wellFormed = true → decode (encode i) = .ok i

/-- R55: decoding then encoding a legal word returns the word; what is decoded is well formed. -/
def Obligations.EncodeOfDecode : Prop :=
  ∀ (w : Word) (i : Instr), decode w = .ok i → encode i = w ∧ i.wellFormed = true

/-- R46: a word selects a row of the opcode map exactly when `CW and mask = match`, plus `nb ≤ 32`. -/
def Obligations.MatchAndMaskSelectTheRow : Prop :=
  ∀ (w : Word) (i : Instr),
    (w &&& rowMask i = rowMatch i ∧ w.toNat / 2 ^ 22 % 64 ≤ 32) ↔
      ∃ j, decode w = .ok j ∧ rowMatch j = rowMatch i

/-- Words written out from R44, R46 and R53 decode to the commands they stand for. -/
def Obligations.SampleWordsDecode : Prop :=
  decode 0x10000000 = .ok .clr ∧ decode 0x200000E4 = .ok (.psh 0xE4) ∧ decode 0x3000000A = .ok (.rdb 10) ∧
  decode 0x41800002 = .ok (.bfx 2 6) ∧ decode 0x48000000 = .ok (.bfx 0 32) ∧ decode 0x50000000 = .ok .wht ∧
  decode 0x60000000 = .ok .crc ∧ decode 0x7000FBD2 = .ok (.ckv 0xFBD2) ∧ decode 0x80000000 = .ok .fck

/-- R53, R54, R55: the disassembly of a legal word assembles to that word, an illegal word is listed as itself, `DWH` is
`WHT`, `LDF` is `CLR` and then one `PSH` per byte, and an operand outside its range is refused. -/
def Obligations.AssemblerInverse : Prop :=
  (∀ (w : Word) (i : Instr), decode w = .ok i →
    ∃ l, disassemble w = .command l ∧ assemble l = some [w] ∧ l ≠ .dwh) ∧
  (∀ (w : Word) (why : Illegal), decode w = .error why → disassemble w = .rawWord w) ∧
  assemble .dwh = some [0x50000000] ∧
  (∀ B : List Byte, assemble (.ldf (B.map BitVec.toNat)) = some (encode .clr :: B.map fun b => encode (.psh b))) ∧
  (∀ n : Nat, (255 < n → assemble (.psh n) = none) ∧ (65535 < n → assemble (.rdb n) = none ∧ assemble (.ckv n) = none)) ∧
  (∀ sb nb : Nat, 65535 < sb ∨ 32 < nb → assemble (.bfx sb nb) = none) ∧
  (∀ bs : List Nat, (∃ n ∈ bs, 255 < n) → assemble (.ldf bs) = none)

/-! ### The step, the host's interactions, reset -/

/-- A step runs the decoded command: when the host's next interaction issues a legal word, the step is `exec` of its
command on the state with that interaction taken off the host's list, and nothing else is around `exec` (R13, R128). That
the host's interactions are a list in State is the model's choice (log 3). -/
def Obligations.StepRunsDecodedCommand : Prop :=
  ∀ (s : State) (w : Word) (rest : List HostMove) (i : Instr), s.moves = .issue w :: rest → decode w = .ok i →
    step s = exec i (s.setMoves rest)

/-- Each step takes exactly one interaction off the host's list, whatever its outcome (R20, R128; the list is the
model's own, log 3). -/
def Obligations.StepTakesOneInteraction : Prop :=
  ∀ s t : State, step s = .next t → t.moves = s.moves.tail

/-- The model's choice (log 4, DEDUCED from R115, R126): with nothing left for the host to do the block waits and
nothing changes. -/
def Obligations.WaitsForTheHost : Prop :=
  ∀ s : State, Ended s → step s = .next s

/-- R27: the registers and the buffer after reset, and the `STATUS` they give. -/
def Obligations.ResetLeavesTheStatedValues : Prop :=
  State.reset.len = 0 ∧ State.reset.res = 0 ∧ State.reset.acc = 0 ∧ State.reset.err = 0 ∧
  statusOf State.reset = 0 ∧ ∀ i, byteAt State.reset i = none

/-- R114: a reset gives the state of R27, whatever the state before it, and a second reset changes nothing more. That the
host's own list and read-back stay is the model's choice (log 6). -/
def Obligations.ResetFromAnyState : Prop :=
  ∀ (s : State) (rest : List HostMove), s.moves = .applyReset :: rest →
    step s = .next { State.reset with moves := rest, readback := s.readback } ∧
    (∀ again, rest = .applyReset :: again →
      step { State.reset with moves := rest, readback := s.readback } =
        .next { State.reset with moves := again, readback := s.readback })

/-- R116: what each command does in the reset state. -/
def Obligations.CommandsInTheResetState : Prop :=
  exec .crc State.reset = .next (State.reset.setRes 0x0000FFFF) ∧
  exec .wht State.reset = .next State.reset ∧
  exec (.bfx 0 0) State.reset = .next State.reset ∧
  (∀ idx, exec (.rdb idx) State.reset = .next (State.reset.setErr 2)) ∧
  exec .fck State.reset = .next (State.reset.setErr 5) ∧
  (∀ v, ∃ t, exec (.ckv v) State.reset = .next t ∧ t.err = 0 ∧ (t.acc = 1 ↔ v = 0xFFFF))

/-- R25: reading a register has no side effect on the block. What the host gets back is zero-extended to 32 bits and kept
in the model's own `readback` (log 5). -/
def Obligations.HostReadHasNoSideEffect : Prop :=
  ∀ (s : State) (r : HostReg) (rest : List HostMove), s.moves = .read r :: rest →
    ∃ t, step s = .next t ∧ t.mem = s.mem ∧ t.len = s.len ∧ t.res = s.res ∧ t.acc = s.acc ∧ t.err = s.err ∧
      (r = .res → t.readback = some s.res) ∧ (r = .acc → t.readback = some (s.acc.setWidth 32)) ∧
      (r = .err → t.readback = some (s.err.setWidth 32)) ∧ (r = .len → t.readback = some (s.len.setWidth 32)) ∧
      (r = .status → t.readback = some (statusOf s))

/-- R127: the fields of `STATUS`, and nothing but them. -/
def Obligations.StatusPacksItsFields : Prop :=
  ∀ s : State, (statusOf s).toNat = s.len.toNat * 2 ^ 16 + s.acc.toNat * 2 ^ 4 + s.err.toNat

/-! ### Memory primitives -/

/-- R31: `MemRead(addr, n)` is the bytes from `addr` on, first byte most significant; beyond `LEN` it is not defined. -/
def Obligations.MemReadIsBigEndian : Prop :=
  ∀ (s : State) (addr n : Nat),
    (∀ B, frame s = some B → 1 ≤ n → addr + n ≤ s.len.toNat →
      ∃ v, memRead s addr n = some v ∧
        ∀ k, k < n → byteAt s (addr + k) = some (v.extractLsb' (8 * (n - 1 - k)) 8)) ∧
    (s.len.toNat < addr + n → memRead s addr n = none)

/-- R32: `MemWrite(addr, n, v)` stores byte `k` of `v`, most significant first, at `addr + k`, and nothing else. -/
def Obligations.MemWriteIsBigEndian : Prop :=
  ∀ (c : Config) (s : State) (addr n : Nat) (v : BitVec (8 * n)), 1 ≤ n →
    (addr + n ≤ s.len.toNat ∨ (addr = s.len.toNat ∧ n = 1 ∧ s.len.toNat < c.bufCap)) →
    ∃ t, memWrite c s addr n v = some t ∧ t = s.setMem t.mem ∧
      (∀ k, k < n → byteAt t (addr + k) = some (v.extractLsb' (8 * (n - k - 1)) 8)) ∧
      (∀ i, i < addr ∨ addr + n ≤ i → byteAt t i = byteAt s i)

/-- R30: stream bit `p` is bit `7 - p mod 8` of byte `p div 8`, and bit `8*L - 1 - p` of the big-endian number. -/
def Obligations.StreamBitOfTheNumber : Prop :=
  ∀ (B : List Byte) (p : Nat) (b : Byte), B[p / 8]? = some b →
    streamBit B p = b.getLsbD (7 - p % 8) ∧ streamBit B p = (bytesToNat B).testBit (8 * B.length - 1 - p)

/-! ### Buffer access -/

/-- R92: `CLR` empties the buffer: afterwards no byte of `BUF` holds a value; `RES` and `ACC` are kept. -/
def Obligations.ClrEmptiesTheBuffer : Prop :=
  encode .clr = 0x10000000 ∧
  ∀ s : State, ∃ t, exec .clr s = .next t ∧ t.len = 0 ∧ t.err = 0 ∧ frame t = some [] ∧ (∀ i, byteAt t i = none) ∧
    t.res = s.res ∧ t.acc = s.acc ∧ t.moves = s.moves ∧ t.readback = s.readback

/-- R93, R94: `PSH` appends one byte, or reports `E_FULL` at capacity. -/
def Obligations.PshAppendsOrReportsFull : Prop :=
  (∀ b : Byte, (encode (.psh b)).toNat = 0x20000000 + b.toNat) ∧
  (∀ (b : Byte) (s : State), s.len.toNat < Config.block.bufCap →
    ∃ t, exec (.psh b) s = .next t ∧ t.len.toNat = s.len.toNat + 1 ∧ t.err = 0 ∧
      byteAt t s.len.toNat = some b ∧ (∀ i, i ≠ s.len.toNat → byteAt t i = byteAt s i) ∧
      (∀ B, frame s = some B → frame t = some (B ++ [b])) ∧
      t.res = s.res ∧ t.acc = s.acc ∧ t.moves = s.moves ∧ t.readback = s.readback) ∧
  (∀ (b : Byte) (s : State), s.len.toNat = Config.block.bufCap → exec (.psh b) s = .next (s.setErr 4))

/-- R95, R96: `RDB` reads one byte, zero-extended, or reports `E_RANGE` at or beyond `LEN`; up to index 8191 it does what
`BFX 8*idx, 8` does, in range and out of it. -/
def Obligations.RdbReadsOrReportsRange : Prop :=
  (∀ idx : Half, (encode (.rdb idx)).toNat = 0x30000000 + idx.toNat) ∧
  (∀ (idx : Half) (s : State) (b : Byte), idx.toNat < s.len.toNat → byteAt s idx.toNat = some b →
    exec (.rdb idx) s = .next ((s.setRes (b.setWidth 32)).setErr 0)) ∧
  (∀ (idx : Half) (s : State), s.len.toNat ≤ idx.toNat → exec (.rdb idx) s = .next (s.setErr 2)) ∧
  (∀ (idx : Half) (s : State) (B : List Byte), frame s = some B → idx.toNat ≤ 8191 →
    exec (.rdb idx) s = exec (.bfx (8 * idx) 8) s)

/-- R98: `LDF` loads a frame of up to `BUF_CAP` bytes from any state; of a longer one the first `BUF_CAP` bytes are loaded
and the last `ERR` is `E_FULL`. -/
def Obligations.LoadFrameLoadsTheBytes : Prop :=
  (∀ (B : List Byte) (s : State), B.length ≤ Config.block.bufCap →
    ∃ t, execList (loadFrame B) s = .next t ∧ t.len.toNat = B.length ∧ frame t = some B ∧ t.err = 0 ∧
      t.res = s.res ∧ t.acc = s.acc) ∧
  (∀ (B : List Byte) (s : State), Config.block.bufCap < B.length →
    ∃ t, execList (loadFrame B) s = .next t ∧ frame t = some (B.take Config.block.bufCap) ∧ t.err = 4 ∧
      t.res = s.res ∧ t.acc = s.acc)

/-! ### Bit-field extraction -/

/-- R59: `extract` has a value exactly on its domain. -/
def Obligations.ExtractHasAValueOnItsDomain : Prop :=
  ∀ (B : List Byte) (start n : Nat), (∃ v, extract B start n = some v) ↔ n ≤ 32 ∧ start + n ≤ 8 * B.length

/-- R57: the first stream bit read is bit `n - 1` of the result, the last is bit 0, and the bits from `n` up are 0. -/
def Obligations.ExtractReadsTheStream : Prop :=
  ∀ (B : List Byte) (start n : Nat) (v : Word), extract B start n = some v →
    (∀ k, k < n → v.getLsbD (n - 1 - k) = streamBit B (start + k)) ∧ (∀ j, n ≤ j → v.getLsbD j = false)

/-- R58: the closed form equals `extract` on its whole domain. -/
def Obligations.ExtractClosedForm : Prop :=
  ∀ (B : List Byte) (start n : Nat) (v : Word), extract B start n = some v →
    v.toNat = (bytesToNat B / 2 ^ (8 * B.length - start - n)) % 2 ^ n

/-- R60: the value depends only on the bytes `s div 8` to `(s + n - 1) div 8` (on none when `n` is 0). -/
def Obligations.ExtractDependsOnItsBytesOnly : Prop :=
  ∀ (B C : List Byte) (start n : Nat), B.length = C.length →
    (∀ j, 0 < n → start / 8 ≤ j → j ≤ (start + n - 1) / 8 → B[j]? = C[j]?) → extract B start n = extract C start n

/-- R61, R63: `BFX` puts the extracted field into `RES`, or reports `E_RANGE` where the field runs past the last valid
bit. -/
def Obligations.BfxExtractsOrReportsRange : Prop :=
  (∀ (sb : Half) (nb : BitVec 6), (encode (.bfx sb nb)).toNat = 0x40000000 + nb.toNat * 2 ^ 22 + sb.toNat) ∧
  (∀ (sb : Half) (nb : BitVec 6) (s : State) (B : List Byte), frame s = some B → nb.toNat ≤ 32 →
    sb.toNat + nb.toNat ≤ 8 * s.len.toNat →
    ∃ v, extract B sb.toNat nb.toNat = some v ∧ exec (.bfx sb nb) s = .next ((s.setRes v).setErr 0)) ∧
  (∀ (sb : Half) (nb : BitVec 6) (s : State), nb.toNat ≤ 32 → 8 * s.len.toNat < sb.toNat + nb.toNat →
    exec (.bfx sb nb) s = .next (s.setErr 2))

/-- The model's choice (log 11, DEDUCED from R50, R105): `BFX` taken as a command with a width above 32 does what its
illegal word does. -/
def Obligations.BfxWidthAbove32IsIllegal : Prop :=
  ∀ (sb : Half) (nb : BitVec 6) (s : State), 32 < nb.toNat → exec (.bfx sb nb) s = .next (s.setErr 1)

/-- R62 (a), (e): a zero width gives 0 up to and including one past the last bit; the whole of a buffer of at most four
bytes is read as a big-endian number. (R62 (d) is the last clause of RdbReadsOrReportsRange.) -/
def Obligations.BfxZeroAndWholeWidths : Prop :=
  (∀ (sb : Half) (s : State) (B : List Byte), frame s = some B → sb.toNat ≤ 8 * s.len.toNat →
    exec (.bfx sb 0) s = .next ((s.setRes 0).setErr 0)) ∧
  (∀ (nb : BitVec 6) (s : State) (B : List Byte), frame s = some B → s.len.toNat ≤ 4 → nb.toNat = 8 * s.len.toNat →
    exec (.bfx 0 nb) s = .next ((s.setRes (BitVec.ofNat 32 (bytesToNat B))).setErr 0))

/-! ### Whitening -/

/-- R67: `whiten` is defined up to `MAX_LEN`, keeps the length, and xors byte `i` with `WT[i]`, for every table. -/
def Obligations.WhitenXorsByteByByte : Prop :=
  ∀ (c : Config) (B : List Byte),
    (∀ B', whiten c B = some B' →
      B'.length = B.length ∧ ∀ (i : Nat) (b w : Byte), B[i]? = some b → c.wt[i]? = some w → B'[i]? = some (b ^^^ w)) ∧
    ((∃ B', whiten c B = some B') ↔ B.length ≤ c.maxLen)

/-- R69: `whiten` is an involution for every table; it keeps the length, and its byte `i` depends on byte `i` alone. -/
def Obligations.WhitenIsAnInvolution : Prop :=
  ∀ (c : Config) (B : List Byte), B.length ≤ c.maxLen →
    ∃ B', whiten c B = some B' ∧ whiten c B' = some B ∧ B'.length = B.length ∧
      ∀ (C C' : List Byte) (i : Nat), whiten c C = some C' → C[i]? = B[i]? → C'[i]? = B'[i]?

/-- `WHT` completes whenever the frame fits the block's table (R70): the frame is whitened and only `ERR` changes
besides. -/
def Obligations.WhtCompletes : Prop :=
  ∀ (s : State) (B : List Byte), frame s = some B → s.len.toNat ≤ Config.block.maxLen →
    ∃ t, exec .wht s = .next t ∧ frame t = whiten Config.block B ∧ t.err = 0 ∧
      (∀ i, s.len.toNat ≤ i → byteAt t i = byteAt s i) ∧
      t.len = s.len ∧ t.res = s.res ∧ t.acc = s.acc ∧ t.moves = s.moves ∧ t.readback = s.readback

/-- R70, R71, for every configuration (the block's is one of them): `WHT` xors every byte of the frame in place, or
reports `E_TOOLONG` and leaves every byte. -/
def Obligations.WhtWhitensOrReportsTooLong : Prop :=
  encode .wht = 0x50000000 ∧ (∀ s, exec .wht s = whitenBuffer Config.block s) ∧
  (∀ (c : Config) (s : State) (B : List Byte), frame s = some B → s.len.toNat ≤ c.maxLen →
    ∃ t, whitenBuffer c s = .next t ∧ t.err = 0 ∧
      (∀ (i : Nat) (b w : Byte), i < s.len.toNat → byteAt s i = some b → c.wt[i]? = some w → byteAt t i = some (b ^^^ w)) ∧
      (∀ i, s.len.toNat ≤ i → byteAt t i = byteAt s i) ∧
      t.len = s.len ∧ t.res = s.res ∧ t.acc = s.acc ∧ t.moves = s.moves ∧ t.readback = s.readback) ∧
  (∀ (c : Config) (s : State), c.maxLen < s.len.toNat → whitenBuffer c s = .next (s.setErr 3))

/-- R72 (e): two `WHT` in a row restore the whole state but for `ERR`, which is `E_NONE`. -/
def Obligations.WhtTwiceRestores : Prop :=
  ∀ (c : Config) (s : State) (B : List Byte), Memory.wf s.mem = true → frame s = some B → s.len.toNat ≤ c.maxLen →
    ∃ t, whitenBuffer c s = .next t ∧ whitenBuffer c t = .next (s.setErr 0)

/-- R72 (f): `WHT`, `PSH b`, `WHT` restores the first bytes and whitens the appended one with `WT[LEN]`. -/
def Obligations.WhtPushWht : Prop :=
  ∀ (c : Config) (s : State) (B : List Byte) (b w : Byte), c.Valid → frame s = some B → s.len.toNat < c.bufCap →
    c.wt[s.len.toNat]? = some w →
    ∃ t u v, whitenBuffer c s = .next t ∧ pushByte c b t = .next u ∧ whitenBuffer c u = .next v ∧
      frame v = some (B ++ [b ^^^ w])

/-! ### Checksum -/

/-- R76: the bit step, in numbers: double modulo 2^16, then xor the constant if the old top bit differs from the data
bit. -/
def Obligations.CrcBitStep : Prop :=
  ∀ (acc : Half) (d : Bool),
    (crcBit Config.block acc d).toNat =
      if (decide (2 ^ 15 ≤ acc.toNat) != d) = true then (2 * acc.toNat % 2 ^ 16) ^^^ 0x8005 else 2 * acc.toNat % 2 ^ 16

/-- R78: `checksum16` is `CRC_INIT` folded with `crc_bit` over the stream bits in order. -/
def Obligations.ChecksumFoldsTheStream : Prop :=
  ∀ (c : Config) (B : List Byte),
    checksum16 c B = ((List.range (8 * B.length)).map (streamBit B)).foldl (crcBit c) c.crcInit

/-- R79 (c): appending the checksum, most significant byte first, drives the accumulator to zero. -/
def Obligations.ChecksumResidueIsZero : Prop :=
  ∀ (c : Config) (B : List Byte),
    checksum16 c (B ++ [(checksum16 c B).extractLsb' 8 8, (checksum16 c B).extractLsb' 0 8]) = 0

/-- R79 (d): for a fixed data bit the step is a bijection, so flipping any one bit of a buffer changes its checksum. -/
def Obligations.OneFlippedBitChangesTheChecksum : Prop :=
  (∀ d, Function.Bijective fun acc => crcBit Config.block acc d) ∧
  ∀ (B : List Byte) (j k : Nat) (b : Byte), B[j]? = some b → k < 8 →
    checksum16 Config.block (B.set j (b ^^^ (1 <<< k))) ≠ checksum16 Config.block B

/-- R83: `CRC` puts the checksum of the frame into `RES`, zero-extended. -/
def Obligations.CrcComputesTheChecksum : Prop :=
  encode .crc = 0x60000000 ∧
  ∀ (s : State) (B : List Byte), frame s = some B →
    exec .crc s = .next ((s.setRes ((checksum16 Config.block B).setWidth 32)).setErr 0)

/-- R84, R82: `CKV` reports the recomputed checksum in `RES` and its equality with `val`, all 16 bits, in `ACC`. -/
def Obligations.CkvChecksAgainstTheValue : Prop :=
  (∀ val : Half, (encode (.ckv val)).toNat = 0x70000000 + val.toNat) ∧
  ∀ (val : Half) (s : State) (B : List Byte), frame s = some B →
    exec (.ckv val) s =
      .next (((s.setRes ((checksum16 Config.block B).setWidth 32)).setAcc
        (if checksum16 Config.block B = val then 1 else 0)).setErr 0)

/-- R87, R86, R88: `FCK` checks the last two bytes, high byte first, against the checksum of the bytes before them, and
reports `E_SHORT` below two bytes. -/
def Obligations.FckChecksTheTrailingBytes : Prop :=
  encode .fck = 0x80000000 ∧
  (∀ (s : State) (D : List Byte) (hi lo : Byte), frame s = some (D ++ [hi, lo]) →
    exec .fck s =
      .next (((s.setRes ((checksum16 Config.block D).setWidth 32)).setAcc
        (if (checksum16 Config.block D).toNat = hi.toNat * 256 + lo.toNat then 1 else 0)).setErr 0)) ∧
  (∀ s : State, s.len.toNat < 2 → exec .fck s = .next (s.setErr 5))

/-- R89 (b): `FCK` accepts exactly when the checksum of the whole frame is 0. -/
def Obligations.FckAcceptsExactlyZeroResidue : Prop :=
  ∀ (s : State) (B : List Byte), frame s = some B → 2 ≤ s.len.toNat →
    ∃ t, exec .fck s = .next t ∧ (t.acc = 1 ↔ checksum16 Config.block B = 0)

/-- R89 (d): `FCK` equals `CKV tx` on a buffer two bytes shorter, in `RES` and `ACC`. -/
def Obligations.FckIsCkvOnTheShorterFrame : Prop :=
  ∀ (s s' t t' : State) (D : List Byte) (hi lo : Byte), frame s = some (D ++ [hi, lo]) → frame s' = some D →
    exec .fck s = .next t → exec (.ckv (BitVec.ofNat 16 (hi.toNat * 256 + lo.toNat))) s' = .next t' → t.res = t'.res ∧ t.acc = t'.acc

/-- R121: after `FCK` the frame is accepted (`ERR = E_NONE` and `ACC = 1`) exactly if it has its two trailing bytes and
they are the checksum of the rest; an `ACC` left over from an earlier check does not pass for it. -/
def Obligations.AcceptedFrameHasItsChecksum : Prop :=
  ∀ (s t : State) (B : List Byte), frame s = some B → exec .fck s = .next t →
    (FrameAccepted t ↔ ∃ (D : List Byte) (hi lo : Byte), B = D ++ [hi, lo] ∧
      (checksum16 Config.block D).toNat = hi.toNat * 256 + lo.toNat)

/-! ### Errors -/

/-- R102: a command that ends with an error has written `ERR` and no other state. -/
def Obligations.ErrorsLeaveTheStateUntouched : Prop :=
  ∀ (i : Instr) (s t : State), exec i s = .next t → t.err ≠ 0 → SameButErr s t

/-- R103: no command's outcome depends on the error code before it: `ERR` is overwritten, `E_NONE` included. -/
def Obligations.ErrIsNotSticky : Prop :=
  ∀ (i : Instr) (s : State) (e : BitVec 4), exec i (s.setErr e) = exec i s

/-- R99, R100: which legal command ends with which code, and on which cause. -/
def Obligations.ErrorCodesAndTheirCauses : Prop :=
  ∀ (i : Instr) (s t : State), i.wellFormed = true → exec i s = .next t →
    match i with
    | .clr => t.err = 0
    | .psh _ => (t.err = 4 ∧ s.len.toNat = Config.block.bufCap) ∨ (t.err = 0 ∧ s.len.toNat ≠ Config.block.bufCap)
    | .rdb idx => (t.err = 2 ∧ s.len.toNat ≤ idx.toNat) ∨ (t.err = 0 ∧ idx.toNat < s.len.toNat)
    | .bfx sb nb =>
      (t.err = 2 ∧ 8 * s.len.toNat < sb.toNat + nb.toNat) ∨ (t.err = 0 ∧ sb.toNat + nb.toNat ≤ 8 * s.len.toNat)
    | .wht => (t.err = 3 ∧ Config.block.maxLen < s.len.toNat) ∨ (t.err = 0 ∧ s.len.toNat ≤ Config.block.maxLen)
    | .crc => t.err = 0
    | .ckv _ => t.err = 0
    | .fck => (t.err = 5 ∧ s.len.toNat < 2) ∨ (t.err = 0 ∧ 2 ≤ s.len.toNat)

/-- The interactions 93 U1 and U3 call a run gone wrong still answer a next state, with `E_ILL` or `E_RANGE` and nothing
else changed in the block (R48, R63; log 10). -/
def Obligations.GoingWrongIsReported : Prop :=
  ∀ s : State, GoesWrong s →
    step s = .next ((s.setMoves s.moves.tail).setErr 1) ∨ step s = .next ((s.setMoves s.moves.tail).setErr 2)

/-! ### Frames and whole-machine rules -/

/-- The frame of the commands that store nothing (`RDB`, `BFX`, `CRC`, `CKV`, `FCK`): every byte of `BUF`, `LEN` and the
host's side are unchanged, and `ACC` too but for `CKV` and `FCK` (R61, R83, R84, R87, R95). -/
def Obligations.ReadingCommandsFrame : Prop :=
  ∀ (i : Instr) (s t : State), exec i s = .next t →
    match i with
    | .clr => True
    | .psh _ => True
    | .wht => True
    | .rdb _ => (∀ a, byteAt t a = byteAt s a) ∧ t.len = s.len ∧ t.acc = s.acc ∧ t.moves = s.moves ∧ t.readback = s.readback
    | .bfx _ _ => (∀ a, byteAt t a = byteAt s a) ∧ t.len = s.len ∧ t.acc = s.acc ∧ t.moves = s.moves ∧ t.readback = s.readback
    | .crc => (∀ a, byteAt t a = byteAt s a) ∧ t.len = s.len ∧ t.acc = s.acc ∧ t.moves = s.moves ∧ t.readback = s.readback
    | .ckv _ => (∀ a, byteAt t a = byteAt s a) ∧ t.len = s.len ∧ t.moves = s.moves ∧ t.readback = s.readback
    | .fck => (∀ a, byteAt t a = byteAt s a) ∧ t.len = s.len ∧ t.moves = s.moves ∧ t.readback = s.readback

/-- The frame of the commands that write the buffer (`CLR`, `PSH`, `WHT`): `RES`, `ACC` and the host's side are unchanged;
`PSH` stores at index `LEN` alone, and nowhere if it reports an error; `WHT` keeps `LEN` and every byte from `LEN` up, and
every byte if it reports an error (R70, R71, R92, R93, R94). -/
def Obligations.StoringCommandsFrame : Prop :=
  ∀ (i : Instr) (s t : State), exec i s = .next t →
    match i with
    | .clr => t.res = s.res ∧ t.acc = s.acc ∧ t.moves = s.moves ∧ t.readback = s.readback
    | .psh _ =>
      t.res = s.res ∧ t.acc = s.acc ∧ t.moves = s.moves ∧ t.readback = s.readback ∧
      ∀ a, a ≠ s.len.toNat ∨ t.err ≠ 0 → byteAt t a = byteAt s a
    | .wht =>
      t.res = s.res ∧ t.acc = s.acc ∧ t.len = s.len ∧ t.moves = s.moves ∧ t.readback = s.readback ∧
      ∀ a, s.len.toNat ≤ a ∨ t.err ≠ 0 → byteAt t a = byteAt s a
    | .rdb _ => True
    | .bfx _ _ => True
    | .crc => True
    | .ckv _ => True
    | .fck => True

/-- R16: `LEN` is changed only by `CLR` (to 0), by a successful `PSH` (plus 1) and by reset (to 0). -/
def Obligations.LenChangesOnlyByClrPshReset : Prop :=
  ∀ s t : State, step s = .next t → t.len ≠ s.len →
    (s.moves.head? = some .applyReset ∧ t.len = 0) ∨
    (∃ w, s.moves.head? = some (.issue w) ∧ decode w = .ok .clr ∧ t.len = 0) ∨
    (∃ w b, s.moves.head? = some (.issue w) ∧ decode w = .ok (.psh b) ∧ t.err = 0 ∧ t.len = s.len + 1)

/-- R22: only `CKV`, `FCK` and reset write `ACC`. -/
def Obligations.AccWrittenOnlyByChecksAndReset : Prop :=
  ∀ s t : State, step s = .next t → t.acc ≠ s.acc →
    s.moves.head? = some .applyReset ∨
    (∃ w val, s.moves.head? = some (.issue w) ∧ decode w = .ok (.ckv val)) ∨
    (∃ w, s.moves.head? = some (.issue w) ∧ decode w = .ok .fck)

/-- R15: the only command that changes bytes already in the buffer is `WHT`: a step that does not issue it leaves every
byte that holds a value before and after it as it was. -/
def Obligations.OnlyWhtChangesHeldBytes : Prop :=
  ∀ (s t : State) (a : Nat) (b b' : Byte), Inv s → step s = .next t →
    (∀ w, s.moves.head? = some (.issue w) → decode w ≠ .ok .wht) →
    byteAt s a = some b → byteAt t a = some b' → b' = b

/-- R17: nothing a command leaves in the registers or in the frame depends on cells at or beyond `LEN`. -/
def Obligations.BytesBeyondLenAreNeverRead : Prop :=
  ∀ (i : Instr) (s t : State) (m : Memory), (∀ a, a < s.len.toNat → Memory.read m a = byteAt s a) →
    exec i s = .next t →
    ∃ t', exec i (s.setMem m) = .next t' ∧ t'.len = t.len ∧ t'.res = t.res ∧ t'.acc = t.acc ∧ t'.err = t.err ∧
      ∀ a, a < t.len.toNat → byteAt t' a = byteAt t a

/-- R37: every read command is idempotent. -/
def Obligations.ReadCommandsAreIdempotent : Prop :=
  ∀ (i : Instr) (s t : State),
    isReadCommand i = true → exec i s = .next t → exec i t = .next t

/-! ### The invariant -/

/-- The invariant holds after reset (R16, R17, R21, R27). -/
def Obligations.InvariantAfterReset : Prop := Inv State.reset

/-- Every step from a state that meets the invariant, reached by a run or not, leads to one that meets it: exactly the
bytes below `LEN` hold a value, in canonical form, `LEN` is at most `BUF_CAP`, and `ERR` is a code of R99. -/
def Obligations.EveryStepKeepsTheInvariant : Prop :=
  ∀ s t : State, Inv s → step s = .next t → Inv t

/-- R107, R125: no state that meets the invariant makes the block stop or refuse: every interaction of the host completes,
every command among them. -/
def Obligations.TheBlockNeverStops : Prop :=
  ∀ s : State, Inv s → (∃ t, step s = .next t) ∧ ∀ i : Instr, ∃ t, exec i s = .next t
end

