-- ==== Sys2Proof/Laws/Memory.lean ====
section
/-! SUPPORT. The laws of the buffer's cells: read after write, ranges of bytes, and the canonical form. -/

namespace Sys2Proof.Machine

@[simp] theorem Memory.read_write_same (m : Memory) (a : Nat) (v : Byte) :
    Memory.read (Memory.write m a v) a = some v := by
  induction m with
  | nil => simp [Memory.write, Memory.read]
  | cons c m ih =>
    simp only [Memory.write]
    split
    · simp [Memory.read]
    · split
      · simp [Memory.read]
      · simp [Memory.read, *]

theorem Memory.read_write_other (m : Memory) {a b : Nat} (v : Byte) (h : b ≠ a) :
    Memory.read (Memory.write m a v) b = Memory.read m b := by
  induction m with
  | nil => simp [Memory.write, Memory.read, h]
  | cons c m ih =>
    simp only [Memory.write]
    split
    · simp [Memory.read, h]
    · split
      · simp_all [Memory.read]
      · simp [Memory.read, ih]

theorem Memory.read_write (m : Memory) (a b : Nat) (v : Byte) :
    Memory.read (Memory.write m a v) b = if b = a then some v else Memory.read m b := by
  by_cases h : b = a
  · subst h; simp
  · simp [Memory.read_write_other m v h, h]

/-- An index inside a stored byte sequence reads as that byte, every other index as before. -/
theorem Memory.read_writeBytes (m : Memory) (a : Nat) (bs : List Byte) (i : Nat) :
    Memory.read (Memory.writeBytes m a bs) i =
      if a ≤ i ∧ i < a + bs.length then bs[i - a]? else Memory.read m i := by
  induction bs generalizing m a with
  | nil => simp [Memory.writeBytes]
  | cons b bs ih =>
    simp only [Memory.writeBytes, ih, Memory.read_write, List.length_cons]
    by_cases h : i = a
    · subst h; simp
    · by_cases h2 : a + 1 ≤ i
      · have h3 : i - a = (i - (a + 1)) + 1 := by omega
        have h4 : a ≤ i := by omega
        have h5 : a + 1 + bs.length = a + (bs.length + 1) := by omega
        simp [h, h2, h3, h4, h5]
      · have h3 : ¬a ≤ i := by omega
        simp [h, h2, h3]

theorem Memory.wf_iff_pairwise (m : Memory) :
    Memory.wf m = true ↔ (m.map Prod.fst).Pairwise (· < ·) := by
  induction m with
  | nil => simp [Memory.wf]
  | cons c m ih =>
    cases m with
    | nil => simp [Memory.wf]
    | cons d m =>
      simp only [Memory.wf, Bool.and_eq_true, decide_eq_true_eq, ih, List.map_cons, List.pairwise_cons, List.mem_cons]
      constructor
      · rintro ⟨h, h2, h3⟩
        refine ⟨?_, h2, h3⟩
        rintro x (rfl | hx)
        · exact h
        · exact h.trans (h2 x hx)
      · rintro ⟨h, h2, h3⟩
        exact ⟨h _ (.inl rfl), h2, h3⟩

/-- The indices a write lists: those listed before, and its own. -/
theorem Memory.mem_write_fst (m : Memory) (a : Nat) (v : Byte) (x : Nat) :
    x ∈ (Memory.write m a v).map Prod.fst ↔ x = a ∨ x ∈ m.map Prod.fst := by
  induction m with
  | nil => simp [Memory.write]
  | cons c m ih =>
    simp only [Memory.write]
    split
    · simp
    · split
      · rename_i h; subst h; simp
      · simp only [List.map_cons, List.mem_cons, ih]; tauto

/-- A write keeps the canonical form. -/
theorem Memory.write_wf {m : Memory} (h : Memory.wf m = true) (a : Nat) (v : Byte) :
    Memory.wf (Memory.write m a v) = true := by
  rw [Memory.wf_iff_pairwise] at h ⊢
  induction m with
  | nil => simp [Memory.write]
  | cons c m ih =>
    simp only [List.map_cons, List.pairwise_cons] at h
    obtain ⟨hc, hm⟩ := h
    simp only [Memory.write]
    split
    · rename_i hlt
      simp only [List.map_cons, List.pairwise_cons, List.mem_cons]
      refine ⟨?_, hc, hm⟩
      rintro x (rfl | hx)
      · exact hlt
      · exact hlt.trans (hc x hx)
    · split
      · rename_i h; subst h; exact List.pairwise_cons.2 ⟨hc, hm⟩
      · simp only [List.map_cons, List.pairwise_cons]
        refine ⟨fun x hx => ?_, ih hm⟩
        rcases (Memory.mem_write_fst m a v x).1 hx with rfl | hx
        · omega
        · exact hc x hx

/-- Storing a byte sequence keeps the canonical form. -/
theorem Memory.writeBytes_wf {m : Memory} (h : Memory.wf m = true) (a : Nat) (bs : List Byte) :
    Memory.wf (Memory.writeBytes m a bs) = true := by
  induction bs generalizing m a with
  | nil => exact h
  | cons b bs ih => exact ih (Memory.write_wf h a b) _

/-- In canonical form an index is listed exactly if it holds a value. -/
theorem Memory.read_isSome (m : Memory) (a : Nat) :
    (Memory.read m a).isSome = true ↔ a ∈ m.map Prod.fst := by
  induction m with
  | nil => simp [Memory.read]
  | cons c m ih =>
    simp only [Memory.read, List.map_cons, List.mem_cons]
    split <;> simp_all

/-- What a range of bytes reads as: each of its indices holds the byte at that place. -/
theorem Memory.readBytes_eq_some {m : Memory} {a n : Nat} {bs : List Byte} :
    Memory.readBytes m a n = some bs ↔
      bs.length = n ∧ ∀ k, k < n → Memory.read m (a + k) = bs[k]? := by
  induction n generalizing a bs with
  | zero => cases bs <;> simp [Memory.readBytes]
  | succ n ih =>
    simp only [Memory.readBytes]
    constructor
    · intro h
      split at h
      · rename_i b bs' hb hbs
        obtain rfl : b :: bs' = bs := by simpa using h
        obtain ⟨hl, hk⟩ := ih.1 hbs
        refine ⟨by simp [hl], fun k hlt => ?_⟩
        cases k with
        | zero => simpa using hb
        | succ k =>
          have := hk k (by omega)
          rwa [show a + 1 + k = a + (k + 1) by omega] at this
      · cases h
    · rintro ⟨hl, hk⟩
      cases bs with
      | nil => simp at hl
      | cons b bs =>
        have h0 : Memory.read m a = some b := by simpa using hk 0 (by omega)
        have h1 : Memory.readBytes m (a + 1) n = some bs := by
          refine ih.2 ⟨by simpa using hl, fun k hlt => ?_⟩
          have := hk (k + 1) (by omega)
          rwa [show a + (k + 1) = a + 1 + k by omega] at this
        simp [h0, h1]

theorem Memory.readBytes_length {m : Memory} {a n : Nat} {bs : List Byte}
    (h : Memory.readBytes m a n = some bs) : bs.length = n :=
  (Memory.readBytes_eq_some.1 h).1

/-- Every index of a range holds a value exactly if the range reads as some byte sequence. -/
theorem Memory.readBytes_isSome {m : Memory} {a n : Nat}
    (h : ∀ k, k < n → (Memory.read m (a + k)).isSome = true) : ∃ bs, Memory.readBytes m a n = some bs := by
  induction n generalizing a with
  | zero => exact ⟨[], rfl⟩
  | succ n ih =>
    obtain ⟨b, hb⟩ := Option.isSome_iff_exists.1 (by simpa using h 0 (by omega))
    obtain ⟨bs, hbs⟩ := ih (a := a + 1) fun k hk => by
      rw [show a + 1 + k = a + (k + 1) by omega]; exact h (k + 1) (by omega)
    exact ⟨b :: bs, by simp [Memory.readBytes, hb, hbs]⟩

/-- Two canonical memories whose indices read alike are equal. -/
theorem Memory.eq_of_read {m m' : Memory} (h : Memory.wf m = true) (h' : Memory.wf m' = true)
    (hr : ∀ a, Memory.read m a = Memory.read m' a) : m = m' := by
  rw [Memory.wf_iff_pairwise] at h h'
  induction m generalizing m' with
  | nil =>
    cases m' with
    | nil => rfl
    | cons c m' => have := hr c.1; simp [Memory.read] at this
  | cons c m ih =>
    cases m' with
    | nil => have := hr c.1; simp [Memory.read] at this
    | cons d m' =>
      simp only [List.map_cons, List.pairwise_cons] at h h'
      have low : ∀ {k : Host.Cell} {l : Memory} {x : Nat}, (∀ y ∈ l.map Prod.fst, k.1 < y) → x ≤ k.1 → x ≠ k.1 →
          Memory.read (k :: l) x = none := by
        intro k l x hk hx hne
        rw [← Option.not_isSome_iff_eq_none, Memory.read_isSome]
        simp only [List.map_cons, List.mem_cons, not_or]
        exact ⟨hne, fun hm => by have := hk x hm; omega⟩
      have hk : c.1 = d.1 := by
        by_contra hne
        rcases Nat.lt_or_gt_of_ne hne with hlt | hlt
        · have h1 := hr c.1
          rw [low h'.1 (by omega) hne] at h1
          simp [Memory.read] at h1
        · have h1 := hr d.1
          rw [low h.1 (by omega) (Ne.symm hne)] at h1
          simp [Memory.read] at h1
      obtain ⟨x, b⟩ := c
      obtain ⟨y, b'⟩ := d
      dsimp only at hk h h'
      subst hk
      have hb : b = b' := by simpa [Memory.read] using hr x
      subst hb
      congr 1
      refine ih h.2 h'.2 fun a => ?_
      by_cases ha : a = x
      · subst ha
        have e1 : Memory.read m a = none := by
          rw [← Option.not_isSome_iff_eq_none, Memory.read_isSome]; exact fun hm => Nat.lt_irrefl _ (h.1 a hm)
        have e2 : Memory.read m' a = none := by
          rw [← Option.not_isSome_iff_eq_none, Memory.read_isSome]; exact fun hm => Nat.lt_irrefl _ (h'.1 a hm)
        rw [e1, e2]
      · simpa [Memory.read, ha] using hr a

end Sys2Proof.Machine
end

