-- ==== Sys2Proof/Laws/State.lean ====
section
/-! SUPPORT. What each update of State does to each field: one lemma per field per update. -/

namespace Sys2Proof.Machine

@[simp] theorem State.setMem_mem (s : State) (v : Memory) : (s.setMem v).mem = v := rfl
@[simp] theorem State.setMem_len (s : State) (v : Memory) : (s.setMem v).len = s.len := rfl
@[simp] theorem State.setMem_res (s : State) (v : Memory) : (s.setMem v).res = s.res := rfl
@[simp] theorem State.setMem_acc (s : State) (v : Memory) : (s.setMem v).acc = s.acc := rfl
@[simp] theorem State.setMem_err (s : State) (v : Memory) : (s.setMem v).err = s.err := rfl
@[simp] theorem State.setMem_moves (s : State) (v : Memory) : (s.setMem v).moves = s.moves := rfl
@[simp] theorem State.setMem_readback (s : State) (v : Memory) : (s.setMem v).readback = s.readback := rfl

@[simp] theorem State.setLen_mem (s : State) (v : Half) : (s.setLen v).mem = s.mem := rfl
@[simp] theorem State.setLen_len (s : State) (v : Half) : (s.setLen v).len = v := rfl
@[simp] theorem State.setLen_res (s : State) (v : Half) : (s.setLen v).res = s.res := rfl
@[simp] theorem State.setLen_acc (s : State) (v : Half) : (s.setLen v).acc = s.acc := rfl
@[simp] theorem State.setLen_err (s : State) (v : Half) : (s.setLen v).err = s.err := rfl
@[simp] theorem State.setLen_moves (s : State) (v : Half) : (s.setLen v).moves = s.moves := rfl
@[simp] theorem State.setLen_readback (s : State) (v : Half) : (s.setLen v).readback = s.readback := rfl

@[simp] theorem State.setRes_mem (s : State) (v : Word) : (s.setRes v).mem = s.mem := rfl
@[simp] theorem State.setRes_len (s : State) (v : Word) : (s.setRes v).len = s.len := rfl
@[simp] theorem State.setRes_res (s : State) (v : Word) : (s.setRes v).res = v := rfl
@[simp] theorem State.setRes_acc (s : State) (v : Word) : (s.setRes v).acc = s.acc := rfl
@[simp] theorem State.setRes_err (s : State) (v : Word) : (s.setRes v).err = s.err := rfl
@[simp] theorem State.setRes_moves (s : State) (v : Word) : (s.setRes v).moves = s.moves := rfl
@[simp] theorem State.setRes_readback (s : State) (v : Word) : (s.setRes v).readback = s.readback := rfl

@[simp] theorem State.setAcc_mem (s : State) (v : BitVec 1) : (s.setAcc v).mem = s.mem := rfl
@[simp] theorem State.setAcc_len (s : State) (v : BitVec 1) : (s.setAcc v).len = s.len := rfl
@[simp] theorem State.setAcc_res (s : State) (v : BitVec 1) : (s.setAcc v).res = s.res := rfl
@[simp] theorem State.setAcc_acc (s : State) (v : BitVec 1) : (s.setAcc v).acc = v := rfl
@[simp] theorem State.setAcc_err (s : State) (v : BitVec 1) : (s.setAcc v).err = s.err := rfl
@[simp] theorem State.setAcc_moves (s : State) (v : BitVec 1) : (s.setAcc v).moves = s.moves := rfl
@[simp] theorem State.setAcc_readback (s : State) (v : BitVec 1) : (s.setAcc v).readback = s.readback := rfl

@[simp] theorem State.setErr_mem (s : State) (v : BitVec 4) : (s.setErr v).mem = s.mem := rfl
@[simp] theorem State.setErr_len (s : State) (v : BitVec 4) : (s.setErr v).len = s.len := rfl
@[simp] theorem State.setErr_res (s : State) (v : BitVec 4) : (s.setErr v).res = s.res := rfl
@[simp] theorem State.setErr_acc (s : State) (v : BitVec 4) : (s.setErr v).acc = s.acc := rfl
@[simp] theorem State.setErr_err (s : State) (v : BitVec 4) : (s.setErr v).err = v := rfl
@[simp] theorem State.setErr_moves (s : State) (v : BitVec 4) : (s.setErr v).moves = s.moves := rfl
@[simp] theorem State.setErr_readback (s : State) (v : BitVec 4) : (s.setErr v).readback = s.readback := rfl

@[simp] theorem State.setMoves_mem (s : State) (v : List HostMove) : (s.setMoves v).mem = s.mem := rfl
@[simp] theorem State.setMoves_len (s : State) (v : List HostMove) : (s.setMoves v).len = s.len := rfl
@[simp] theorem State.setMoves_res (s : State) (v : List HostMove) : (s.setMoves v).res = s.res := rfl
@[simp] theorem State.setMoves_acc (s : State) (v : List HostMove) : (s.setMoves v).acc = s.acc := rfl
@[simp] theorem State.setMoves_err (s : State) (v : List HostMove) : (s.setMoves v).err = s.err := rfl
@[simp] theorem State.setMoves_moves (s : State) (v : List HostMove) : (s.setMoves v).moves = v := rfl
@[simp] theorem State.setMoves_readback (s : State) (v : List HostMove) : (s.setMoves v).readback = s.readback := rfl

@[simp] theorem State.setReadback_mem (s : State) (v : Option Word) : (s.setReadback v).mem = s.mem := rfl
@[simp] theorem State.setReadback_len (s : State) (v : Option Word) : (s.setReadback v).len = s.len := rfl
@[simp] theorem State.setReadback_res (s : State) (v : Option Word) : (s.setReadback v).res = s.res := rfl
@[simp] theorem State.setReadback_acc (s : State) (v : Option Word) : (s.setReadback v).acc = s.acc := rfl
@[simp] theorem State.setReadback_err (s : State) (v : Option Word) : (s.setReadback v).err = s.err := rfl
@[simp] theorem State.setReadback_moves (s : State) (v : Option Word) : (s.setReadback v).moves = s.moves := rfl
@[simp] theorem State.setReadback_readback (s : State) (v : Option Word) : (s.setReadback v).readback = v := rfl

@[simp] theorem State.setErr_setErr (s : State) (v w : BitVec 4) : (s.setErr v).setErr w = s.setErr w := rfl

/-- Two states that agree on every field are equal. -/
theorem State.eq_of_fields {s t : State} (hm : s.mem = t.mem) (hl : s.len = t.len) (hr : s.res = t.res)
    (ha : s.acc = t.acc) (he : s.err = t.err) (hv : s.moves = t.moves) (hb : s.readback = t.readback) : s = t := by
  cases s; cases t; simp_all

end Sys2Proof.Machine
end

