-- ==== Sys2Proof/Laws/Ops.lean ====
section
/-! SUPPORT. One lemma per shared operation: everything it can do. -/

namespace Sys2Proof.Machine

@[simp] theorem raiseError_eq_next {e : ErrCode} {s t : State} :
    raiseError e s = .next t ↔ t = s.setErr (errBits e) := by
  simp [raiseError, eq_comm]

@[simp] theorem succeed_eq_next {s t : State} : succeed s = .next t ↔ t = s.setErr (errBits .none) := by
  simp [succeed, eq_comm]

@[simp] theorem finish_some (s : State) (why : Fault) : finish (some s) why = succeed s := rfl

@[simp] theorem finish_none (why : Fault) : finish none why = .fault why := rfl

/-- The six codes are all different (60_exceptions.md R99). -/
theorem errBits_injective {e f : ErrCode} (h : errBits e = errBits f) : e = f := by
  revert h; cases e <;> cases f <;> decide

/-- A code is at most 5 (10_state.md R21). -/
theorem errBits_le (e : ErrCode) : (errBits e).toNat ≤ 5 := by cases e <;> decide

/-- `withFrame` runs its continuation on `FB`, or faults where a byte below `LEN` holds no value. -/
theorem withFrame_cases (s : State) (k : List Byte → Result) :
    (∃ B, frame s = some B ∧ withFrame s k = k B) ∨ (frame s = none ∧ withFrame s k = .fault .noValue) := by
  unfold withFrame
  cases frame s <;> simp

theorem withFrame_some {s : State} {B : List Byte} (h : frame s = some B) (k : List Byte → Result) :
    withFrame s k = k B := by simp [withFrame, h]

theorem frame_length {s : State} {B : List Byte} (h : frame s = some B) : B.length = s.len.toNat :=
  Memory.readBytes_length h

/-- The frame is the bytes below `LEN` (00_scope.md R11). -/
theorem frame_eq_some {s : State} {B : List Byte} :
    frame s = some B ↔ B.length = s.len.toNat ∧ ∀ i, i < s.len.toNat → byteAt s i = B[i]? := by
  simp [frame, byteAt, Memory.readBytes_eq_some]

/-- A one-byte `MemRead` below `LEN` is the byte at that index (20_memory.md R31). -/
theorem memRead_byte {s : State} {i : Nat} (h : i < s.len.toNat) :
    memRead s i 1 = (byteAt s i : Option (BitVec 8)) := by
  have : 1 ≤ 1 ∧ i + 1 ≤ s.len.toNat := ⟨le_refl _, h⟩
  simp only [memRead, if_pos this, byteAt, Memory.readBytes]
  cases Memory.read s.mem i with
  | none => rfl
  | some b => simp [bytesToNat]

/-- A one-byte `MemWrite` in its domain stores that byte and nothing else (20_memory.md R32). -/
theorem memWrite_byte {c : Config} {s : State} {i : Nat} (v : Byte)
    (h : i + 1 ≤ s.len.toNat ∨ (i = s.len.toNat ∧ s.len.toNat < c.bufCap)) :
    memWrite c s i 1 v = some (s.setMem (Memory.write s.mem i v)) := by
  have hv : bytesOfBits 1 v = [v] := by
    simp only [bytesOfBits, List.range_one, List.map_cons, List.map_nil]
    congr 1
    exact BitVec.extractLsb'_eq_self
  unfold memWrite
  rw [if_pos ⟨le_refl _, h.imp_right fun ⟨a, b⟩ => ⟨a, rfl, b⟩⟩, hv]
  rfl

/-- The configuration of the machine meets the bounds of 00_scope.md R5. -/
theorem Config.block_valid : Config.block.Valid := by
  have := Config.openCapacity.isLt
  simp only [Config.Valid, Config.block]; omega

/-- Reset memory is in canonical form. -/
theorem reset_mem_wf : Memory.wf State.reset.mem = true := rfl

/-- The invariant gives the canonical form of the buffer's cells. -/
theorem Inv.wf {s : State} (h : Inv s) : Memory.wf s.mem = true := by
  rw [Memory.wf_iff_pairwise, h.cells]; exact List.pairwise_lt_range

/-- Under the invariant exactly the bytes below `LEN` hold a value (10_state.md R17). -/
theorem Inv.byteAt_isSome {s : State} (h : Inv s) (i : Nat) : (byteAt s i).isSome = true ↔ i < s.len.toNat := by
  rw [byteAt, Memory.read_isSome, h.cells, List.mem_range]

/-- Under the invariant the frame can be read. -/
theorem Inv.frame {s : State} (h : Inv s) : ∃ B, frame s = some B :=
  Memory.readBytes_isSome fun k hk => by simpa [byteAt] using (h.byteAt_isSome k).2 hk

/-- The cells are exactly those below `LEN` if memory is canonical and holds a value exactly below `LEN`. -/
theorem cells_eq_range {m : Memory} {n : Nat} (hw : Memory.wf m = true)
    (h : ∀ i, (Memory.read m i).isSome = true ↔ i < n) : m.map Prod.fst = List.range n := by
  rw [Memory.wf_iff_pairwise] at hw
  refine List.Perm.eq_of_pairwise (le := (· < ·)) (fun a b _ _ h1 h2 => (Nat.lt_asymm h1 h2).elim) hw
    List.pairwise_lt_range ?_
  refine (List.perm_ext_iff_of_nodup (hw.imp Nat.ne_of_lt) List.nodup_range).2 fun a => ?_
  rw [← Memory.read_isSome, h, List.mem_range]

@[simp] theorem resetBlock_moves (s : State) : (resetBlock s).moves = s.moves := rfl
@[simp] theorem resetBlock_readback (s : State) : (resetBlock s).readback = s.readback := rfl
@[simp] theorem resetBlock_mem (s : State) : (resetBlock s).mem = [] := rfl
@[simp] theorem resetBlock_len (s : State) : (resetBlock s).len = 0 := rfl
@[simp] theorem resetBlock_res (s : State) : (resetBlock s).res = 0 := rfl
@[simp] theorem resetBlock_acc (s : State) : (resetBlock s).acc = 0 := rfl
@[simp] theorem resetBlock_err (s : State) : (resetBlock s).err = 0 := rfl

end Sys2Proof.Machine
end

