-- ==== Sys2Proof/Laws/Exec.lean ====
section
/-! SUPPORT. One inversion lemma per command: everything it can do when it answers a next state. -/

namespace Sys2Proof.Machine

theorem execClr_next {s t : State} (h : exec .clr s = .next t) : t = (emptyBuffer s).setErr 0 := by
  simpa [exec, execClr, errBits] using h

theorem execPsh_next {b : Byte} {s t : State} (h : exec (.psh b) s = .next t) :
    (s.len.toNat = Config.block.bufCap ∧ t = s.setErr 4) ∨
    (s.len.toNat < Config.block.bufCap ∧
      t = ((s.setMem (Memory.write s.mem s.len.toNat b)).setLen (s.len + 1)).setErr 0) := by
  simp only [exec, execPsh, pushByte] at h
  split at h
  · rename_i hc; exact .inl ⟨hc, by simpa [errBits] using h⟩
  · refine .inr ?_
    by_cases hl : s.len.toNat < Config.block.bufCap
    · rw [memWrite_byte b (.inr ⟨rfl, hl⟩)] at h
      exact ⟨hl, by simpa [errBits] using h⟩
    · have hn : memWrite Config.block s s.len.toNat 1 b = none := by
        unfold memWrite; rw [if_neg (by omega)]
      rw [hn] at h; cases h

theorem execRdb_next {idx : Half} {s t : State} (h : exec (.rdb idx) s = .next t) :
    (s.len.toNat ≤ idx.toNat ∧ t = s.setErr 2) ∨
    (idx.toNat < s.len.toNat ∧ ∃ b, byteAt s idx.toNat = some b ∧ t = (s.setRes (b.setWidth 32)).setErr 0) := by
  simp only [exec, execRdb] at h
  split at h
  · rename_i hc; exact .inl ⟨hc, by simpa [errBits] using h⟩
  · rename_i hc
    have hc : idx.toNat < s.len.toNat := Nat.lt_of_not_le hc
    refine .inr ⟨hc, ?_⟩
    rw [memRead_byte hc] at h
    cases hb : byteAt s idx.toNat with
    | none => rw [hb] at h; cases h
    | some b => rw [hb] at h; exact ⟨b, rfl, by simpa [errBits] using h⟩

theorem execBfx_next {sb : Half} {nb : BitVec 6} {s t : State} (h : exec (.bfx sb nb) s = .next t) :
    (32 < nb.toNat ∧ t = s.setErr 1) ∨
    (nb.toNat ≤ 32 ∧ 8 * s.len.toNat < sb.toNat + nb.toNat ∧ t = s.setErr 2) ∨
    (nb.toNat ≤ 32 ∧ sb.toNat + nb.toNat ≤ 8 * s.len.toNat ∧
      ∃ B v, frame s = some B ∧ extract B sb.toNat nb.toNat = some v ∧ t = (s.setRes v).setErr 0) := by
  simp only [exec, execBfx] at h
  split at h
  · rename_i hc; exact .inl ⟨hc, by simpa [errBits] using h⟩
  · rename_i hc
    have hc : nb.toNat ≤ 32 := Nat.le_of_not_lt hc
    split at h
    · rename_i hd; exact .inr (.inl ⟨hc, hd, by simpa [errBits] using h⟩)
    · rename_i hd
      refine .inr (.inr ⟨hc, Nat.le_of_not_lt hd, ?_⟩)
      rcases withFrame_cases s
        (fun B => finish ((extract B (startBit sb) (numBits nb)).map s.setRes) .noValue) with ⟨B, hB, e⟩ | ⟨-, e⟩
      · rw [e] at h
        cases hv : extract B (startBit sb) (numBits nb) with
        | none => rw [hv] at h; cases h
        | some v => rw [hv] at h; exact ⟨B, v, hB, hv, by simpa [errBits] using h⟩
      · rw [e] at h; cases h

theorem execWht_next {s t : State} (h : exec .wht s = .next t) :
    (Config.block.maxLen < s.len.toNat ∧ t = s.setErr 3) ∨
    (s.len.toNat ≤ Config.block.maxLen ∧ ∃ B B', frame s = some B ∧ whiten Config.block B = some B' ∧
      t = (s.setMem (Memory.writeBytes s.mem 0 B')).setErr 0) := by
  simp only [exec, execWht, whitenBuffer] at h
  split at h
  · rename_i hc; exact .inl ⟨hc, by simpa [errBits] using h⟩
  · rename_i hc
    refine .inr ⟨Nat.le_of_not_lt hc, ?_⟩
    rcases withFrame_cases s (fun B =>
      finish ((whiten Config.block B).map fun B' => s.setMem (Memory.writeBytes s.mem 0 B')) .noValue)
      with ⟨B, hB, e⟩ | ⟨-, e⟩
    · rw [e] at h
      cases hw : whiten Config.block B with
      | none => rw [hw] at h; cases h
      | some B' => rw [hw] at h; exact ⟨B, B', hB, hw, by simpa [errBits] using h⟩
    · rw [e] at h; cases h

theorem execCrc_next {s t : State} (h : exec .crc s = .next t) :
    ∃ B, frame s = some B ∧ t = (s.setRes ((checksum16 Config.block B).setWidth 32)).setErr 0 := by
  simp only [exec, execCrc, computeChecksum] at h
  rcases withFrame_cases s (fun B => succeed (s.setRes (zext32 (checksum16 Config.block B)))) with ⟨B, hB, e⟩ | ⟨-, e⟩
  · rw [e] at h; exact ⟨B, hB, by simpa [errBits] using h⟩
  · rw [e] at h; cases h

theorem execCkv_next {val : Half} {s t : State} (h : exec (.ckv val) s = .next t) :
    ∃ B, frame s = some B ∧ reportCheck Config.block B val s = .next t := by
  simp only [exec, execCkv, checkValue] at h
  rcases withFrame_cases s (fun B => reportCheck Config.block B val s) with ⟨B, hB, e⟩ | ⟨-, e⟩
  · rw [e] at h; exact ⟨B, hB, h⟩
  · rw [e] at h; cases h

theorem execFck_next {s t : State} (h : exec .fck s = .next t) :
    (s.len.toNat < 2 ∧ t = s.setErr 5) ∨
    (2 ≤ s.len.toNat ∧ ∃ (D : List Byte) (hi lo : Byte), frame s = some (D ++ [hi, lo]) ∧
      reportCheck Config.block D (txOf hi lo) s = .next t) := by
  by_cases hlen : s.len.toNat < 2
  · simp only [exec, execFck, checkTrailing, if_pos hlen] at h
    exact .inl ⟨hlen, by simpa [errBits] using h⟩
  · refine .inr ⟨by omega, ?_⟩
    simp only [exec, execFck, checkTrailing] at h
    rw [if_neg hlen, memRead_byte (by omega), memRead_byte (by omega)] at h
    split at h
    · rename_i hi lo D h1 h2 h3
      refine ⟨D, hi, lo, ?_, h⟩
      obtain ⟨e, hk⟩ := Memory.readBytes_eq_some.1 h3
      rw [frame_eq_some]
      refine ⟨by simp; omega, fun i hi' => ?_⟩
      by_cases c1 : i < D.length
      · rw [List.getElem?_append_left c1]; simpa [byteAt] using hk i (by omega)
      · by_cases c2 : i = D.length
        · subst c2; rw [e, h1]; simp [← e]
        · have c3 : i = D.length + 1 := by omega
          subst c3
          rw [show D.length + 1 = s.len.toNat - 1 by omega, h2, show s.len.toNat - 1 = D.length + 1 by omega]
          simp
    · cases h

/-- The big-endian number of the two checksum bytes (42_checksum.md R86). -/
theorem txOf_toNat (hi lo : Byte) : (txOf hi lo).toNat = hi.toNat * 256 + lo.toNat := by
  have h1 := hi.isLt
  have h2 := lo.isLt
  simp only [txOf, BitVec.toNat_or, BitVec.toNat_shiftLeft, BitVec.toNat_setWidth]
  rw [Nat.mod_eq_of_lt (a := hi.toNat) (by omega), Nat.mod_eq_of_lt (a := lo.toNat) (by omega), Nat.shiftLeft_eq,
    Nat.mod_eq_of_lt (by omega), ← Nat.shiftLeft_eq, ← Nat.shiftLeft_add_eq_or_of_lt (by omega), Nat.shiftLeft_eq]

end Sys2Proof.Machine
end

