-- ==== Sys2Proof/Laws/Fields.lean ====
section
/-! SUPPORT. The fields of a command word: reading a field of a laid-out word gives that field, and a word with `rsv`
zero is laid out from its fields (30_encoding.md R43). -/

namespace Sys2Proof

/-- Bit `i` of a laid-out word comes from the field it lies in. -/
theorem wordOf_getLsbD (op : BitVec 4) (nb : BitVec 6) (imm : Half) (i : Nat) :
    (wordOf op nb imm).getLsbD i =
      if i < 16 then imm.getLsbD i
      else if i - 16 < 6 then (0 : BitVec 6).getLsbD (i - 16)
      else if i - 16 - 6 < 6 then nb.getLsbD (i - 16 - 6)
      else op.getLsbD (i - 16 - 6 - 6) := by
  have h : (wordOf op nb imm).getLsbD i =
      BitVec.getLsbD (w := 4 + 6 + 6 + 16) (op ++ nb ++ (0 : BitVec 6) ++ imm) i := rfl
  rw [h, BitVec.getLsbD_append, BitVec.getLsbD_append, BitVec.getLsbD_append]

@[simp] theorem opOf_wordOf (op : BitVec 4) (nb : BitVec 6) (imm : Half) : opOf (wordOf op nb imm) = op := by
  apply BitVec.eq_of_getLsbD_eq
  intro i hi
  rw [opOf, BitVec.getLsbD_extractLsb', wordOf_getLsbD, if_neg (by omega), if_neg (by omega), if_neg (by omega),
    show 28 + i - 16 - 6 - 6 = i by omega]
  simp [hi]

@[simp] theorem nbOf_wordOf (op : BitVec 4) (nb : BitVec 6) (imm : Half) : nbOf (wordOf op nb imm) = nb := by
  apply BitVec.eq_of_getLsbD_eq
  intro i hi
  rw [nbOf, BitVec.getLsbD_extractLsb', wordOf_getLsbD, if_neg (by omega), if_neg (by omega), if_pos (by omega),
    show 22 + i - 16 - 6 = i by omega]
  simp [hi]

@[simp] theorem rsvOf_wordOf (op : BitVec 4) (nb : BitVec 6) (imm : Half) : rsvOf (wordOf op nb imm) = 0 := by
  apply BitVec.eq_of_getLsbD_eq
  intro i hi
  rw [rsvOf, BitVec.getLsbD_extractLsb', wordOf_getLsbD, if_neg (by omega), if_pos (by omega)]
  simp

@[simp] theorem immOf_wordOf (op : BitVec 4) (nb : BitVec 6) (imm : Half) : immOf (wordOf op nb imm) = imm := by
  apply BitVec.eq_of_getLsbD_eq
  intro i hi
  rw [immOf, BitVec.getLsbD_extractLsb', wordOf_getLsbD, if_pos (by omega)]
  simp [hi]

/-- A word whose `rsv` is zero is `wordOf` of its other fields. -/
theorem wordOf_fields {w : Word} (h : rsvOf w = 0) : wordOf (opOf w) (nbOf w) (immOf w) = w := by
  apply BitVec.eq_of_getLsbD_eq
  intro i hi
  rw [wordOf_getLsbD]
  split
  · rename_i h1; simp [immOf, h1]
  · split
    · rename_i h1 h2
      have e : (rsvOf w).getLsbD (i - 16) = (0 : BitVec 6).getLsbD (i - 16) := by rw [h]
      rw [← e, rsvOf, BitVec.getLsbD_extractLsb', show 16 + (i - 16) = i by omega]
      simp [h2]
    · split
      · rename_i h1 h2 h3
        rw [nbOf, BitVec.getLsbD_extractLsb', show 22 + (i - 16 - 6) = i by omega]
        simp [h3]
      · rw [opOf, BitVec.getLsbD_extractLsb', show 28 + (i - 16 - 6 - 6) = i by omega]
        have : i - 16 - 6 - 6 < 4 := by omega
        simp [this]

end Sys2Proof
end

