-- ==== Sys2Proof/Laws/PerInstr.lean ====
section
/-! SUPPORT. Per-instruction families. EncodedFields: in the word of every command `rsv` is 0, and `nb` is 0 except in
`BFX`, where it is the `num_bits` operand (30_encoding.md R43, R49). -/

namespace Sys2Proof.Laws.EncodedFields

/-- The `nb` field a command is to carry (R43). -/
def widthField : Instr → BitVec 6
  | .clr => 0
  | .psh _ => 0
  | .rdb _ => 0
  | .bfx _ nb => nb
  | .wht => 0
  | .crc => 0
  | .ckv _ => 0
  | .fck => 0

/-- The statement of the family. -/
def Statement (i : Instr) : Prop := rsvOf (encode i) = 0 ∧ nbOf (encode i) = widthField i

theorem clr : Statement .clr := by simp [Statement, encode, widthField]
theorem psh (byte : Byte) : Statement (.psh byte) := by simp [Statement, encode, widthField]
theorem rdb (idx : Half) : Statement (.rdb idx) := by simp [Statement, encode, widthField]
theorem bfx (sb : Half) (nb : BitVec 6) : Statement (.bfx sb nb) := by simp [Statement, encode, widthField]
theorem wht : Statement .wht := by simp [Statement, encode, widthField]
theorem crc : Statement .crc := by simp [Statement, encode, widthField]
theorem ckv (val : Half) : Statement (.ckv val) := by simp [Statement, encode, widthField]
theorem fck : Statement .fck := by simp [Statement, encode, widthField]

end Sys2Proof.Laws.EncodedFields
end

