-- ==== Sys2Proof/Tests/Slice0.lean ====
section
/-! SUPPORT. The model's own tests: words written out from the encoding rules, one-step tests with the results of
95_test_vectors.md, and for every statement with hypotheses a witness that meets them. -/

namespace Sys2Proof.Tests

open Sys2Proof.Machine

/-- The state that holds the bytes `B` and nothing else. -/
def stateOf (B : List Byte) : State :=
  { State.reset with mem := (List.range B.length).zip B, len := BitVec.ofNat 16 B.length }

/-- The next state of an outcome, if it is one. -/
def nextOf : Result → Option State
  | .next s => some s
  | .fault _ => none
  | .refused _ => none

/-- The host is about to issue one word. -/
def issuing (s : State) (w : Word) : State := s.setMoves [.issue w]

/-! ### Well-formedness and decoding -/

theorem test_wellFormed_refuses_width_33 : Instr.wellFormed (.bfx 0 33) = false := by decide
theorem test_wellFormed_accepts_width_32 : Instr.wellFormed (.bfx 0 32) = true := by decide

-- R44, R46: oooo nnnnnn rrrrrr iiiiiiiiiiiiiiii, written out bit by bit
theorem test_decode_clr : decode 0b00010000000000000000000000000000 = .ok .clr := by decide
theorem test_decode_psh : decode 0b00100000000000000000000010100101 = .ok (.psh 0xA5) := by decide
theorem test_decode_rdb : decode 0b00110000000000001000000000000001 = .ok (.rdb 0x8001) := by decide
theorem test_decode_bfx : decode 0b01000001100000000000000000000010 = .ok (.bfx 2 6) := by decide
theorem test_decode_wht : decode 0b01010000000000000000000000000000 = .ok .wht := by decide
theorem test_decode_crc : decode 0b01100000000000000000000000000000 = .ok .crc := by decide
theorem test_decode_ckv : decode 0b01110000000000001111101111010010 = .ok (.ckv 0xFBD2) := by decide
theorem test_decode_fck : decode 0b10000000000000000000000000000000 = .ok .fck := by decide
-- V64, V65, V66
theorem test_decode_zero : decode 0x00000000 = .error .reservedOpcode := by decide
theorem test_decode_ones : decode 0xFFFFFFFF = .error .reservedOpcode := by decide
theorem test_decode_op9 : decode 0x90000000 = .error .reservedOpcode := by decide
-- V67 to V75
theorem test_decode_clr_imm : decode 0x10000001 = .error .reservedField := by decide
theorem test_decode_clr_nb : decode 0x10400000 = .error .reservedField := by decide
theorem test_decode_psh_imm : decode 0x20000100 = .error .reservedField := by decide
theorem test_decode_wht_rsv : decode 0x50010000 = .error .reservedField := by decide
theorem test_decode_bfx_33 : decode 0x48400000 = .error .widthAbove32 := by decide
theorem test_decode_bfx_rsv : decode 0x40200000 = .error .reservedField := by decide
theorem test_decode_crc_imm : decode 0x60008000 = .error .reservedField := by decide
theorem test_decode_fck_imm : decode 0x80000001 = .error .reservedField := by decide
theorem test_decode_rdb_nb : decode 0x30400000 = .error .reservedField := by decide
-- V76, V77, V79
theorem test_decode_bfx_63 : decode 0x4FC00000 = .error .widthAbove32 := by decide
theorem test_decode_bfx_32 : decode 0x48000000 = .ok (.bfx 0 32) := by decide
theorem test_decode_bfx_far : decode 0x4000FFFF = .ok (.bfx 65535 0) := by decide
-- V84, V62
theorem test_encode_bfx : encode (.bfx 20 4) = 0x41000014 := by decide
theorem test_encode_ckv : encode (.ckv 0xFBD2) = 0x7000FBD2 := by decide
theorem test_decodeTableWord : decodeTableWord 32 0x3000000A = some (.rdb 10) := by decide

/-! ### The assembler (R53 to R55) -/

theorem test_assembleText_bfx :
    assembleText ['B', 'F', 'X', ' ', '2', ',', ' ', '6', ' ', ';', ' ', 'V', '2'] = some [0x41800002] := by decide
theorem test_assembleText_hex : assembleText ['P', 'S', 'H', ' ', '0', 'x', 'E', '4'] = some [0x200000E4] := by decide
theorem test_assembleText_ldf :
    assembleText ['L', 'D', 'F', ' ', '1', ',', '2'] = some [0x10000000, 0x20000001, 0x20000002] := by decide
theorem test_assembleText_dwh : assembleText ['D', 'W', 'H'] = some [0x50000000] := by decide
theorem test_assembleText_refuses_256 : assembleText ['P', 'S', 'H', ' ', '2', '5', '6'] = none := by decide
theorem test_printListing_illegal :
    printListing (disassemble 0x90000000) = ['.', 'w', 'o', 'r', 'd', ' ', '0', 'x', '9', '0', '0', '0', '0', '0', '0', '0'] := by
  decide

/-! ### One step from reset, on each row's word -/

theorem test_first_clr : (nextOf (step (State.reset.withFetchWord 32 0x10000000))).isSome = true := by decide
theorem test_first_psh :
    (nextOf (step (State.reset.withFetchWord 32 0x200000E4))).bind frame = some [0xE4] := by decide   -- V41
theorem test_first_rdb :
    step (State.reset.withFetchWord 32 0x30000000) = .next (State.reset.setErr 2) := rfl
theorem test_first_bfx : step (State.reset.withFetchWord 32 0x40000000) = .next State.reset := rfl   -- V19a
theorem test_first_wht : step (State.reset.withFetchWord 32 0x50000000) = .next State.reset := rfl   -- V39
theorem test_first_crc :
    step (State.reset.withFetchWord 32 0x60000000) = .next (State.reset.setRes 0x0000FFFF) := rfl    -- V57
theorem test_first_ckv :
    step (State.reset.withFetchWord 32 0x7000FFFF) = .next ((State.reset.setRes 0x0000FFFF).setAcc 1) := rfl   -- V58
theorem test_first_fck :
    step (State.reset.withFetchWord 32 0x80000000) = .next (State.reset.setErr 5) := rfl             -- V60
theorem test_first_illegal :
    step (State.reset.withFetchWord 32 0x48400000) = .next (State.reset.setErr 1) := rfl             -- R105

/-! ### The instructions, on the vectors of 95_test_vectors.md -/

theorem test_clr_keeps_res :   -- V45
    (nextOf (exec .clr ((stateOf [0xE4, 0x04]).setRes 4))).map (fun t => (t.len, t.res, t.err)) = some (0, 4, 0) := by
  decide
theorem test_psh_appends :   -- V42, TEST sizes
    (nextOf (pushByte Config.testProfile 0x04 (stateOf [0xE4]))).bind frame = some [0xE4, 0x04] := by decide
theorem test_psh_full :   -- V47, TEST sizes
    (nextOf (pushByte Config.testProfile 0x01 (stateOf (List.replicate 64 0x55)))).map (fun t => (t.len, t.err)) =
      some (64, 4) := by decide +kernel
theorem test_rdb_reads : (nextOf (exec (.rdb 1) (stateOf [0xE4, 0x04]))).map State.res = some 4 := by decide   -- V43
theorem test_rdb_range : (nextOf (exec (.rdb 2) (stateOf [0xE4, 0x04]))).map State.err = some 2 := by decide   -- V44
theorem test_bfx_five_bytes :   -- V9a
    (nextOf (exec (.bfx 1 32) (stateOf [0xA5, 0xC3, 0xF0, 0x0F, 0x96]))).map State.res = some 0x4B87E01F := by
  decide +kernel
theorem test_bfx_range :   -- V11
    (nextOf (exec (.bfx 9 32) (stateOf [0xA5, 0xC3, 0xF0, 0x0F, 0x96]))).map State.err = some 2 := by decide +kernel
theorem test_wht :   -- V36, TEST WT
    (nextOf (whitenBuffer Config.testProfile (stateOf [0x24, 0x48, 0x0D, 0x1B]))).bind frame =
      some [0xDB, 0xA9, 0x10, 0x81] := by decide +kernel
theorem test_wht_too_long :   -- V38, TEST sizes
    (nextOf (whitenBuffer Config.testProfile (stateOf (List.replicate 33 0xAA)))).map State.err = some 3 := by
  decide +kernel
theorem test_crc_check_value :   -- V23
    (nextOf (exec .crc (stateOf [0x31, 0x32, 0x33, 0x34, 0x35, 0x36, 0x37, 0x38, 0x39]))).map State.res =
      some 0x0000AEE7 := by decide +kernel
theorem test_crc_top_bit_first : checksum16 Config.block [0x80] = 0x7E01 := by decide +kernel   -- V25
theorem test_ckv_accepts :   -- V62
    (nextOf (exec (.ckv 0xFBD2) (stateOf [0x24, 0x48, 0x0D, 0x1B]))).map (fun t => (t.res, t.acc)) =
      some (0x0000FBD2, 1) := by decide +kernel
theorem test_ckv_rejects :   -- V63
    (nextOf (exec (.ckv 0xFBD3) (stateOf [0x24, 0x48, 0x0D, 0x1B]))).map (fun t => (t.res, t.acc)) =
      some (0x0000FBD2, 0) := by decide +kernel
theorem test_fck_high_byte_first :   -- V55
    (nextOf (exec .fck (stateOf [0x31, 0x32, 0x33, 0x34, 0x35, 0x36, 0x37, 0x38, 0x39, 0xAE, 0xE7]))).map State.acc =
      some 1 := by decide +kernel
theorem test_fck_low_byte_first_is_rejected :   -- V56
    (nextOf (exec .fck (stateOf [0x31, 0x32, 0x33, 0x34, 0x35, 0x36, 0x37, 0x38, 0x39, 0xE7, 0xAE]))).map State.acc =
      some 0 := by decide +kernel
theorem test_status :   -- V52: STATUS = 0x00110010
    statusOf (((stateOf (List.replicate 17 0)).setAcc 1).setErr 0) = 0x00110010 := by decide +kernel

/-! ### Witnesses: for each statement with hypotheses, states and operands that meet them together -/

-- DecodeChecksInOrder, IllegalWordsOnlySetErr: every clause, at its boundary words
theorem witness_fields :
    (0x00000000 : Word).toNat / 2 ^ 28 = 0 ∧ (0x90000000 : Word).toNat / 2 ^ 28 = 9 ∧
    (0x50010000 : Word).toNat / 2 ^ 16 % 64 = 1 ∧ (0x10400000 : Word).toNat / 2 ^ 22 % 64 = 1 ∧
    (0x10000001 : Word).toNat % 2 ^ 16 = 1 ∧ (0x20000100 : Word).toNat % 2 ^ 16 = 256 ∧
    (0x48400000 : Word).toNat / 2 ^ 22 % 64 = 33 ∧ (0x48000000 : Word).toNat / 2 ^ 22 % 64 = 32 ∧
    (0x200000FF : Word).toNat % 2 ^ 16 = 255 := by decide
theorem witness_illegal_move :
    (issuing State.reset 0x90000000).moves = .issue 0x90000000 :: [] ∧ (0x90000000 : Word).toNat / 2 ^ 28 = 9 := by decide
-- DecodeOfEncode, EncodeOfDecode, MatchAndMaskSelectTheRow, AssemblerInverse
theorem witness_wellFormed : Instr.wellFormed (.bfx 65535 32) = true ∧ decode (encode (.bfx 65535 32)) = .ok (.bfx 65535 32) := by
  decide
theorem witness_mask : (0x4800FFFF : Word) &&& rowMask (.bfx 0 0) = rowMatch (.bfx 0 0) := by decide
theorem witness_listing : decode 0x41800002 = .ok (.bfx 2 6) ∧ decode 0x48400000 = .error .widthAbove32 ∧
    255 < 256 ∧ 65535 < 65536 ∧ (65535 < 65536 ∨ 32 < 0) ∧ ∃ n ∈ [0, 256], 255 < n := by
  refine ⟨by decide, by decide, by decide, by decide, by decide, 256, by decide, by decide⟩
-- StepRunsDecodedCommand, StepTakesOneInteraction
theorem witness_step : (issuing State.reset 0x60000000).moves = .issue 0x60000000 :: [] ∧
    decode 0x60000000 = .ok .crc ∧ step (issuing State.reset 0x60000000) = .next (State.reset.setRes 0x0000FFFF) :=
  ⟨rfl, by decide, rfl⟩
-- WaitsForTheHost
theorem witness_ended : Ended State.reset := rfl
-- ResetFromAnyState
theorem witness_applyReset : ((stateOf [1]).setMoves [.applyReset, .applyReset]).moves = .applyReset :: [.applyReset] := rfl
-- HostReadHasNoSideEffect
theorem witness_read : ((stateOf [1]).setMoves [.read .status]).moves = .read .status :: [] := rfl
-- MemReadIsBigEndian: up to the last byte; MemWriteIsBigEndian: both domains, at LEN - 1 and at LEN
theorem witness_memRead : frame (stateOf [1, 2, 3]) = some [1, 2, 3] ∧ 1 ≤ 2 ∧ 1 + 2 ≤ (stateOf [1, 2, 3]).len.toNat ∧
    (stateOf [1, 2, 3]).len.toNat < 2 + 2 := by decide
theorem witness_memWrite_inside : 2 + 1 ≤ (stateOf [1, 2, 3]).len.toNat := by decide
theorem witness_memWrite_append : 3 = (stateOf [1, 2, 3]).len.toNat ∧ (1 : Nat) = 1 ∧
    (stateOf [1, 2, 3]).len.toNat < Config.testProfile.bufCap := by decide
-- StreamBitOfTheNumber: the last stream bit
theorem witness_streamBit : ([0x24, 0x48] : List Byte)[15 / 8]? = some 0x48 := by decide
-- PshAppendsOrReportsFull: an empty buffer, and a buffer of one byte and of BUF_CAP bytes
theorem witness_psh : State.reset.len.toNat < Config.block.bufCap := Nat.succ_pos _
theorem witness_psh_full : (State.reset.setLen (BitVec.ofNat 16 Config.block.bufCap)).len.toNat = Config.block.bufCap := by
  have h := Config.openCapacity.isLt
  simp only [State.setLen, Config.block, BitVec.toNat_ofNat]
  omega
-- RdbReadsOrReportsRange: the last index below LEN, and LEN itself
theorem witness_rdb : (1 : Half).toNat < (stateOf [7, 8]).len.toNat ∧ byteAt (stateOf [7, 8]) 1 = some 8 ∧
    (stateOf [7, 8]).len.toNat ≤ (2 : Half).toNat := by decide
-- LoadFrameLoadsTheBytes: exactly BUF_CAP bytes, and one more
theorem witness_loadFrame : (List.replicate Config.block.bufCap (0 : Byte)).length ≤ Config.block.bufCap ∧
    Config.block.bufCap < (List.replicate (Config.block.bufCap + 1) (0 : Byte)).length := by simp
-- ExtractReadsTheStream, ExtractClosedForm: the last 32-bit field of five bytes; ExtractDependsOnItsBytesOnly
theorem witness_extract : extract [0xA5, 0xC3, 0xF0, 0x0F, 0x96] 8 32 = some 0xC3F00F96 := by decide +kernel
theorem witness_locality : ([0xA5, 0xC3] : List Byte).length = ([0xA5, 0] : List Byte).length ∧
    ∀ j, 0 < 8 → 0 / 8 ≤ j → j ≤ (0 + 8 - 1) / 8 → ([0xA5, 0xC3] : List Byte)[j]? = ([0xA5, 0] : List Byte)[j]? := by
  refine ⟨rfl, fun j _ _ h => ?_⟩
  obtain rfl : j = 0 := by omega
  rfl
-- BfxExtractsOrReportsRange: the last field that fits, and one bit more; BfxWidthAbove32IsIllegal; BfxZeroAndWholeWidths
theorem witness_bfx : frame (stateOf [0xA5, 0xC3, 0xF0, 0x0F, 0x96]) = some [0xA5, 0xC3, 0xF0, 0x0F, 0x96] ∧
    (32 : BitVec 6).toNat ≤ 32 ∧
    (8 : Half).toNat + (32 : BitVec 6).toNat ≤ 8 * (stateOf [0xA5, 0xC3, 0xF0, 0x0F, 0x96]).len.toNat ∧
    8 * (stateOf [0xA5, 0xC3, 0xF0, 0x0F, 0x96]).len.toNat < (9 : Half).toNat + (32 : BitVec 6).toNat ∧
    32 < (33 : BitVec 6).toNat := by decide
theorem witness_bfx_corners : frame (stateOf [0x24, 0x48, 0x0D, 0x1B]) = some [0x24, 0x48, 0x0D, 0x1B] ∧
    (32 : Half).toNat ≤ 8 * (stateOf [0x24, 0x48, 0x0D, 0x1B]).len.toNat ∧
    (stateOf [0x24, 0x48, 0x0D, 0x1B]).len.toNat ≤ 4 ∧
    (32 : BitVec 6).toNat = 8 * (stateOf [0x24, 0x48, 0x0D, 0x1B]).len.toNat := by decide
-- RdbReadsOrReportsRange, the clause on BFX: inside the frame, and the largest index
theorem witness_rdbIsBfx : frame (stateOf [7, 8]) = some [7, 8] ∧ (1 : Half).toNat ≤ 8191 ∧ (8191 : Half).toNat ≤ 8191 := by decide
-- WhitenXorsByteByByte, WhitenIsAnInvolution
theorem witness_whiten : whiten Config.testProfile [0, 0] = some [0xFF, 0xE1] ∧
    (List.replicate 32 (0 : Byte)).length ≤ Config.testProfile.maxLen ∧
    whiten Config.testProfile [0, 5] = some [0xFF, 0xE4] ∧ ([0, 5] : List Byte)[0]? = ([0, 0] : List Byte)[0]? := by decide
-- WhtCompletes: the empty buffer, and a buffer of one byte with any table that is not empty
theorem witness_wht : frame State.reset = some [] ∧ State.reset.len.toNat ≤ Config.block.maxLen := ⟨rfl, Nat.zero_le _⟩
theorem witness_wht_one_byte (h : Config.block.wt ≠ []) :
    frame (stateOf [7]) = some [7] ∧ (stateOf [7]).len.toNat ≤ Config.block.maxLen :=
  ⟨by decide, List.length_pos_of_ne_nil h⟩
-- WhtWhitensOrReportsTooLong: MAX_LEN bytes, and one more; WhtTwiceRestores
theorem witness_wht_lengths : (stateOf (List.replicate 32 0)).len.toNat ≤ Config.testProfile.maxLen ∧
    frame (stateOf (List.replicate 32 0)) = some (List.replicate 32 0) ∧
    Memory.wf (stateOf (List.replicate 32 0)).mem = true ∧
    Config.testProfile.maxLen < (stateOf (List.replicate 33 0)).len.toNat := by decide +kernel
-- WhtPushWht: the byte goes to the table's last place
theorem witness_whtPushWht : Config.testProfile.Valid ∧
    frame (stateOf (List.replicate 31 0)) = some (List.replicate 31 0) ∧
    (stateOf (List.replicate 31 0)).len.toNat < Config.testProfile.bufCap ∧
    Config.testProfile.wt[(stateOf (List.replicate 31 0)).len.toNat]? = some 0x18 := by decide +kernel
-- OneFlippedBitChangesTheChecksum
theorem witness_flip : ([0, 1] : List Byte)[1]? = some 1 ∧ 7 < 8 := by decide
-- CrcComputesTheChecksum, CkvChecksAgainstTheValue
theorem witness_frame : frame (stateOf [0x24, 0x48]) = some [0x24, 0x48] := by decide
-- FckChecksTheTrailingBytes: exactly two bytes, and one; FckAcceptsExactlyZeroResidue
theorem witness_fck : frame (stateOf [0xFF, 0xFF]) = some ([] ++ [0xFF, 0xFF]) ∧ 2 ≤ (stateOf [0xFF, 0xFF]).len.toNat ∧
    (stateOf [0x7E]).len.toNat < 2 := by decide
-- FckIsCkvOnTheShorterFrame, AcceptedFrameHasItsChecksum
theorem witness_fck_ckv : frame (stateOf [0xFF, 0xFF]) = some ([] ++ [0xFF, 0xFF]) ∧ frame (stateOf []) = some [] ∧
    (∃ t, exec .fck (stateOf [0xFF, 0xFF]) = .next t) ∧
    ∃ t', exec (.ckv (BitVec.ofNat 16 ((0xFF : Byte).toNat * 256 + (0xFF : Byte).toNat))) (stateOf []) = .next t' :=
  ⟨by decide, by decide, ⟨_, rfl⟩, _, rfl⟩
-- ErrorsLeaveTheStateUntouched, ErrorCodesAndTheirCauses
theorem witness_error : exec .fck (stateOf [0x7E]) = .next ((stateOf [0x7E]).setErr 5) ∧
    ((stateOf [0x7E]).setErr 5).err ≠ 0 ∧ Instr.wellFormed .fck = true := ⟨rfl, by decide, rfl⟩
-- GoingWrongIsReported: an illegal word, and a BFX one bit beyond the frame
theorem witness_goesWrong_illegal : GoesWrong (issuing State.reset 0x90000000) :=
  ⟨0x90000000, [], rfl, .inl ⟨.reservedOpcode, by decide⟩⟩
theorem witness_goesWrong_range : GoesWrong (issuing (stateOf [7]) 0x40400008) :=
  ⟨0x40400008, [], rfl, .inr ⟨8, 1, by decide, by decide⟩⟩
-- ReadingCommandsFrame, ReadCommandsAreIdempotent
theorem witness_reading : isReadCommand (.rdb 0) = true ∧ exec (.rdb 0) (stateOf [7]) = .next ((stateOf [7]).setRes 7) :=
  ⟨rfl, rfl⟩
-- StoringCommandsFrame: a store, and a store turned away
theorem witness_storing : exec .wht State.reset = .next State.reset ∧ ∃ t, exec (.psh 7) State.reset = .next t := ⟨rfl, _, rfl⟩
-- LenChangesOnlyByClrPshReset, AccWrittenOnlyByChecksAndReset
theorem witness_len_changes : ∃ t, step (issuing (stateOf [7]) 0x10000000) = .next t ∧ t.len ≠ (stateOf [7]).len :=
  ⟨_, rfl, by decide⟩
theorem witness_acc_changes : ∃ t, step (issuing State.reset 0x7000FFFF) = .next t ∧ t.acc ≠ State.reset.acc :=
  ⟨_, rfl, by decide⟩
-- EveryStepKeepsTheInvariant, TheBlockNeverStops: a buffer of one byte, which every BUF_CAP admits
theorem witness_inv : Inv (issuing (stateOf [7]) 0x30000000) :=
  ⟨by decide, Nat.succ_le_succ (Nat.zero_le _), by decide⟩
-- OnlyWhtChangesHeldBytes
theorem witness_held : step (issuing (stateOf [7]) 0x30000000) = .next ((stateOf [7]).setRes 7) ∧
    (∀ w, (issuing (stateOf [7]) 0x30000000).moves.head? = some (.issue w) → decode w ≠ .ok .wht) ∧
    byteAt (issuing (stateOf [7]) 0x30000000) 0 = some 7 ∧ byteAt ((stateOf [7]).setRes 7) 0 = some 7 := by
  refine ⟨rfl, fun w h => ?_, by decide, by decide⟩
  obtain rfl : 0x30000000 = w := by simpa [issuing, State.setMoves] using h
  decide
-- BytesBeyondLenAreNeverRead: a cell beyond LEN that the other state does not have
theorem witness_beyond : (∀ a, a < (stateOf [7]).len.toNat → Memory.read [(0, 7), (5, 9)] a = byteAt (stateOf [7]) a) ∧
    exec (.rdb 0) (stateOf [7]) = .next ((stateOf [7]).setRes 7) := by
  refine ⟨fun a h => ?_, rfl⟩
  obtain rfl : a = 0 := Nat.lt_one_iff.1 h
  rfl

end Sys2Proof.Tests
end

section
/-! PROOFS. What a command answers where it completes, one equation per outcome: the converses of the inversion lemmas
above. -/

namespace Sys2Proof.Machine

theorem execPsh_of_full {b : Byte} {s : State} (h : s.len.toNat = Config.block.bufCap) :
    exec (.psh b) s = .next (s.setErr 4) := by
  simp [exec, execPsh, pushByte, h, errBits]

theorem execPsh_of_room {b : Byte} {s : State} (h : s.len.toNat < Config.block.bufCap) :
    exec (.psh b) s = .next (((s.setMem (Memory.write s.mem s.len.toNat b)).setLen (s.len + 1)).setErr 0) := by
  simp only [exec, execPsh, pushByte, if_neg (Nat.ne_of_lt h), memWrite_byte b (.inr ⟨rfl, h⟩)]
  rfl

theorem execRdb_of_beyond {idx : Half} {s : State} (h : s.len.toNat ≤ idx.toNat) :
    exec (.rdb idx) s = .next (s.setErr 2) := by
  simp [exec, execRdb, byteIndex, h, errBits]

theorem execRdb_of_byteAt {idx : Half} {s : State} {b : Byte} (h : idx.toNat < s.len.toNat)
    (hb : byteAt s idx.toNat = some b) : exec (.rdb idx) s = .next ((s.setRes (b.setWidth 32)).setErr 0) := by
  simp only [exec, execRdb, byteIndex, if_neg (Nat.not_le.2 h), memRead_byte h, hb]
  rfl

theorem execBfx_of_wide {sb : Half} {nb : BitVec 6} {s : State} (h : 32 < nb.toNat) :
    exec (.bfx sb nb) s = .next (s.setErr 1) := by
  simp [exec, execBfx, numBits, h, errBits]

theorem execBfx_of_beyond {sb : Half} {nb : BitVec 6} {s : State} (hn : nb.toNat ≤ 32)
    (h : 8 * s.len.toNat < sb.toNat + nb.toNat) : exec (.bfx sb nb) s = .next (s.setErr 2) := by
  simp [exec, execBfx, startBit, numBits, hn.not_gt, h, errBits]

theorem execBfx_of_extract {sb : Half} {nb : BitVec 6} {s : State} {B : List Byte} {v : Word} (hn : nb.toNat ≤ 32)
    (h : sb.toNat + nb.toNat ≤ 8 * s.len.toNat) (hB : frame s = some B)
    (hv : extract B sb.toNat nb.toNat = some v) : exec (.bfx sb nb) s = .next ((s.setRes v).setErr 0) := by
  simp only [exec, execBfx, startBit, numBits, if_neg hn.not_gt, if_neg h.not_gt, withFrame_some hB, hv]
  rfl

theorem execWht_of_tooLong {s : State} (h : Config.block.maxLen < s.len.toNat) :
    exec .wht s = .next (s.setErr 3) := by
  simp [exec, execWht, whitenBuffer, h, errBits]

theorem execWht_of_whiten {s : State} {B B' : List Byte} (h : s.len.toNat ≤ Config.block.maxLen)
    (hB : frame s = some B) (hw : whiten Config.block B = some B') :
    exec .wht s = .next ((s.setMem (Memory.writeBytes s.mem 0 B')).setErr 0) := by
  simp only [exec, execWht, whitenBuffer, if_neg h.not_gt, withFrame_some hB, hw]
  rfl

theorem execCrc_of_frame {s : State} {B : List Byte} (hB : frame s = some B) :
    exec .crc s = .next ((s.setRes ((checksum16 Config.block B).setWidth 32)).setErr 0) := by
  simp only [exec, execCrc, computeChecksum, withFrame_some hB]
  rfl

/-- `reportCheck` always completes, and writes `RES`, `ACC` and `ERR` alone (42_checksum.md R84, R87). -/
theorem reportCheck_eq_next {c : Config} {D : List Byte} {tx : Half} {s t : State} :
    reportCheck c D tx s = .next t ↔
      t = ((s.setRes ((checksum16 c D).setWidth 32)).setAcc (accBit (accept c D tx))).setErr 0 :=
  succeed_eq_next

theorem execCkv_of_frame {val : Half} {s : State} {B : List Byte} (hB : frame s = some B) :
    exec (.ckv val) s = reportCheck Config.block B val s := by
  simp only [exec, execCkv, checkValue, withFrame_some hB]

theorem execFck_of_short {s : State} (h : s.len.toNat < 2) : exec .fck s = .next (s.setErr 5) := by
  simp [exec, execFck, checkTrailing, h, errBits]

theorem execFck_of_frame {s : State} {D : List Byte} {hi lo : Byte} (hB : frame s = some (D ++ [hi, lo])) :
    exec .fck s = reportCheck Config.block D (txOf hi lo) s := by
  obtain ⟨hlen, hbyte⟩ := frame_eq_some.1 hB
  replace hlen : s.len.toNat = D.length + 2 := by simpa using hlen.symm
  have hhi : memRead s (s.len.toNat - 2) 1 = some hi := by
    rw [memRead_byte (by omega), hbyte _ (by omega)]; simp [hlen]
  have hlo : memRead s (s.len.toNat - 1) 1 = some lo := by
    rw [memRead_byte (by omega), hbyte _ (by omega)]; simp [hlen]
  have hD : Memory.readBytes s.mem 0 (s.len.toNat - 2) = some D := by
    refine Memory.readBytes_eq_some.2 ⟨by omega, fun k hk => ?_⟩
    have := hbyte k (by omega)
    rw [List.getElem?_append_left (by omega)] at this
    simpa [byteAt] using this
  simp only [exec, execFck, checkTrailing, if_neg (show ¬s.len.toNat < 2 by omega), hhi, hlo, hD]

end Sys2Proof.Machine
end

section
/-! PROOFS. What one step can do, and what one command can do to the buffer. -/

namespace Sys2Proof.Machine

/-- Everything a step can do (70_reset_and_hazards.md R128). -/
theorem step_next {s t : State} (h : step s = .next t) :
    (s.moves = [] ∧ t = s) ∨
    (∃ rest, s.moves = .applyReset :: rest ∧ t = resetBlock (s.setMoves rest)) ∨
    (∃ r rest, s.moves = .read r :: rest ∧ t = (s.setMoves rest).setReadback (some (hostRead s r))) ∨
    (∃ w why rest, s.moves = .issue w :: rest ∧ decode w = .error why ∧ t = (s.setMoves rest).setErr 1) ∨
    (∃ w i rest, s.moves = .issue w :: rest ∧ decode w = .ok i ∧ exec i (s.setMoves rest) = .next t) := by
  simp only [step, stepHost] at h
  cases hm : s.moves with
  | nil => rw [hm] at h; cases h; exact .inl ⟨rfl, rfl⟩
  | cons m rest =>
    rw [hm] at h
    cases m with
    | applyReset => cases h; exact .inr (.inl ⟨rest, rfl, rfl⟩)
    | read r => cases h; exact .inr (.inr (.inl ⟨r, rest, rfl, rfl⟩))
    | issue w =>
      simp only [perform, issueWord] at h
      cases hd : decode w with
      | error why =>
        rw [hd] at h
        exact .inr (.inr (.inr (.inl ⟨w, why, rest, rfl, hd, raiseError_eq_next.1 h⟩)))
      | ok i => rw [hd] at h; exact .inr (.inr (.inr (.inr ⟨w, i, rest, rfl, hd, h⟩)))

/-- Only a reset or a legal command touches `BUF`, `LEN`, `RES` or `ACC` (70_reset_and_hazards.md R128): waiting, a
host read and an illegal word keep all four. -/
theorem step_next_block {s t : State} (h : step s = .next t) :
    (t.mem = s.mem ∧ t.len = s.len ∧ t.res = s.res ∧ t.acc = s.acc) ∨
    (∃ rest, s.moves = .applyReset :: rest ∧ t = resetBlock (s.setMoves rest)) ∨
    (∃ w i rest, s.moves = .issue w :: rest ∧ decode w = .ok i ∧ exec i (s.setMoves rest) = .next t) := by
  obtain ⟨-, rfl⟩ | reset | ⟨_, _, -, rfl⟩ | ⟨_, _, _, -, -, rfl⟩ | command := step_next h
  · exact .inl ⟨rfl, rfl, rfl, rfl⟩
  · exact .inr (.inl reset)
  · exact .inl ⟨rfl, rfl, rfl, rfl⟩
  · exact .inl ⟨rfl, rfl, rfl, rfl⟩
  · exact .inr (.inr command)

/-- What a completed command did to `BUF` and `LEN`, by command (10_state.md R15, R16). -/
inductive BufferEffect (s t : State) : Instr → Prop
  /-- Neither changed: the reading commands, and every command that ends with an error. -/
  | kept {i : Instr} (hmem : t.mem = s.mem) (hlen : t.len = s.len) : BufferEffect s t i
  /-- `CLR` (43_buffer_access.md R92). -/
  | emptied (hmem : t.mem = []) (hlen : t.len = 0) : BufferEffect s t .clr
  /-- `PSH` below capacity (43_buffer_access.md R93). -/
  | pushed {b : Byte} (hmem : t.mem = Memory.write s.mem s.len.toNat b) (hlen : t.len = s.len + 1)
      (herr : t.err = 0) : BufferEffect s t (.psh b)
  /-- `WHT` within the table (41_whitening.md R70). -/
  | whitened {B : List Byte} (hmem : t.mem = Memory.writeBytes s.mem 0 B) (hlen : t.len = s.len) :
      BufferEffect s t .wht

theorem exec_bufferEffect {i : Instr} {s t : State} (h : exec i s = .next t) : BufferEffect s t i := by
  cases i with
  | clr => obtain rfl := execClr_next h; exact .emptied rfl rfl
  | psh b =>
    obtain ⟨-, rfl⟩ | ⟨-, rfl⟩ := execPsh_next h
    · exact .kept rfl rfl
    · exact .pushed rfl rfl rfl
  | rdb idx => obtain ⟨-, rfl⟩ | ⟨-, b, -, rfl⟩ := execRdb_next h <;> exact .kept rfl rfl
  | bfx sb nb =>
    obtain ⟨-, rfl⟩ | ⟨-, -, rfl⟩ | ⟨-, -, B, v, -, -, rfl⟩ := execBfx_next h <;> exact .kept rfl rfl
  | wht =>
    obtain ⟨-, rfl⟩ | ⟨-, B, B', -, -, rfl⟩ := execWht_next h
    · exact .kept rfl rfl
    · exact .whitened rfl rfl
  | crc => obtain ⟨B, -, rfl⟩ := execCrc_next h; exact .kept rfl rfl
  | ckv val =>
    obtain ⟨B, -, hr⟩ := execCkv_next h
    obtain rfl := reportCheck_eq_next.1 hr
    exact .kept rfl rfl
  | fck =>
    obtain ⟨-, rfl⟩ | ⟨-, D, hi, lo, -, hr⟩ := execFck_next h
    · exact .kept rfl rfl
    · obtain rfl := reportCheck_eq_next.1 hr
      exact .kept rfl rfl

/-- Of the commands only `CKV` and `FCK` write `ACC` (10_state.md R22). -/
theorem exec_acc_cases {i : Instr} {s t : State} (h : exec i s = .next t) :
    t.acc = s.acc ∨ (∃ val, i = .ckv val) ∨ i = .fck := by
  cases i with
  | clr => obtain rfl := execClr_next h; exact .inl rfl
  | psh b => obtain ⟨-, rfl⟩ | ⟨-, rfl⟩ := execPsh_next h <;> exact .inl rfl
  | rdb idx => obtain ⟨-, rfl⟩ | ⟨-, b, -, rfl⟩ := execRdb_next h <;> exact .inl rfl
  | bfx sb nb => obtain ⟨-, rfl⟩ | ⟨-, -, rfl⟩ | ⟨-, -, B, v, -, -, rfl⟩ := execBfx_next h <;> exact .inl rfl
  | wht => obtain ⟨-, rfl⟩ | ⟨-, B, B', -, -, rfl⟩ := execWht_next h <;> exact .inl rfl
  | crc => obtain ⟨B, -, rfl⟩ := execCrc_next h; exact .inl rfl
  | ckv val => exact .inr (.inl ⟨val, rfl⟩)
  | fck => exact .inr (.inr rfl)

end Sys2Proof.Machine
end

section
/-! PROOFS. Which steps change `LEN`, `ACC` and the bytes held, and the values that need no step. -/

namespace Sys2Proof.Machine

/-- A concatenation as a number: the high part in units of `2 ^ w`. -/
theorem toNat_append_eq_add {v w : Nat} (x : BitVec v) (y : BitVec w) :
    (x ++ y).toNat = x.toNat * 2 ^ w + y.toNat := by
  rw [BitVec.toNat_append, ← Nat.shiftLeft_add_eq_or_of_lt y.isLt, Nat.shiftLeft_eq]

/-- Settles O15: each concatenation of `statusOf` shifts by the width of what follows. -/
theorem statusPacksItsFields : Obligations.StatusPacksItsFields := by
  intro s
  have h : (statusOf s).toNat = ((s.len.toNat * 2 ^ 11 + 0) * 2 ^ 1 + s.acc.toNat) * 2 ^ 4 + s.err.toNat := by
    simp only [statusOf, toNat_append_eq_add]
    rfl
  omega

/-- Settles O11: the reset state holds these values, and `STATUS` packs zeros. -/
theorem resetLeavesTheStatedValues : Obligations.ResetLeavesTheStatedValues :=
  ⟨rfl, rfl, rfl, rfl, by decide, fun _ => rfl⟩

/-- Settles O52: of a command's effects on the buffer only `CLR`'s and a successful `PSH`'s change `LEN`. -/
theorem lenChangesOnlyByClrPshReset : Obligations.LenChangesOnlyByClrPshReset := by
  intro s t h hne
  obtain ⟨-, hlen, -⟩ | ⟨rest, hm, rfl⟩ | ⟨w, i, rest, hm, hd, he⟩ := step_next_block h
  · exact absurd hlen hne
  · exact .inl ⟨by simp [hm], rfl⟩
  · have hw : s.moves.head? = some (.issue w) := by simp [hm]
    cases exec_bufferEffect he with
    | kept _ hlen => exact absurd hlen hne
    | emptied _ hlen => exact .inr (.inl ⟨w, hw, hd, hlen⟩)
    | pushed _ hlen herr => exact .inr (.inr ⟨w, _, hw, hd, herr, hlen⟩)
    | whitened _ hlen => exact absurd hlen hne

/-- Settles O53: no other step, and of the commands no other, writes `ACC`. -/
theorem accWrittenOnlyByChecksAndReset : Obligations.AccWrittenOnlyByChecksAndReset := by
  intro s t h hne
  obtain ⟨-, -, -, hacc⟩ | ⟨rest, hm, -⟩ | ⟨w, i, rest, hm, hd, he⟩ := step_next_block h
  · exact absurd hacc hne
  · exact .inl (by simp [hm])
  · have hw : s.moves.head? = some (.issue w) := by simp [hm]
    obtain hacc | ⟨val, rfl⟩ | rfl := exec_acc_cases he
    · exact absurd hacc hne
    · exact .inr (.inl ⟨w, val, hw, hd⟩)
    · exact .inr (.inr ⟨w, hw, hd⟩)

/-- No step but one that issues `WHT` changes a byte below `LEN` that holds a value afterwards: `PSH` stores at `LEN`,
and `CLR` and reset leave no byte (10_state.md R15). -/
theorem step_byteAt_below {s t : State} {a : Nat} {b' : Byte} (h : step s = .next t)
    (hwht : ∀ w, s.moves.head? = some (.issue w) → decode w ≠ .ok .wht) (ha : a < s.len.toNat)
    (hb : byteAt t a = some b') : byteAt s a = some b' := by
  unfold byteAt at hb ⊢
  obtain ⟨hmem, -⟩ | ⟨rest, -, rfl⟩ | ⟨w, i, rest, hm, hd, he⟩ := step_next_block h
  · rwa [hmem] at hb
  · simp [Memory.read] at hb
  · cases exec_bufferEffect he with
    | kept hmem _ => rwa [hmem] at hb
    | emptied hmem _ => simp [hmem, Memory.read] at hb
    | pushed hmem _ _ =>
      rw [hmem] at hb
      exact (Memory.read_write_other s.mem _ (Nat.ne_of_lt ha)).symm.trans hb
    | whitened _ _ => exact absurd hd (hwht w (by simp [hm]))

/-- Settles O54: under the invariant the bytes that hold a value are those below `LEN`. -/
theorem onlyWhtChangesHeldBytes : Obligations.OnlyWhtChangesHeldBytes := by
  intro s t a b b' hinv h hwht hb hb'
  have ha : a < s.len.toNat := (hinv.byteAt_isSome a).1 (by simp [hb])
  exact Option.some.inj ((step_byteAt_below h hwht ha hb').symm.trans hb)

end Sys2Proof.Machine
end

section
/-! PROOFS. Cells at or beyond `LEN` do not matter (10_state.md R17): replacing them changes neither what a command reads
nor, besides such cells, what it leaves. -/

namespace Sys2Proof.Machine

/-- The cells `m` read below `LEN` as the buffer of `s` does. -/
def AgreesBelow (m : Memory) (s : State) : Prop := ∀ a, a < s.len.toNat → Memory.read m a = byteAt s a

theorem AgreesBelow.frame_setMem {m : Memory} {s : State} (h : AgreesBelow m s) : frame (s.setMem m) = frame s := by
  refine Option.ext fun B => ?_
  rw [frame_eq_some, frame_eq_some]
  exact and_congr_right fun _ => forall₂_congr fun a ha => by rw [← h a ha]; rfl

/-- The byte `PSH` stores is the only index below the new `LEN` that was not below the old one. -/
theorem AgreesBelow.write_len {m : Memory} {s : State} (h : AgreesBelow m s) (b : Byte) (e : BitVec 4) :
    AgreesBelow (Memory.write m s.len.toNat b)
      (((s.setMem (Memory.write s.mem s.len.toNat b)).setLen (s.len + 1)).setErr e) := by
  intro a ha
  replace ha : a < s.len.toNat + 1 := lt_of_lt_of_le ha (by simpa using Nat.mod_le _ _)
  simp only [byteAt, State.setErr_mem, State.setLen_mem, State.setMem_mem, Memory.read_write]
  split
  · rfl
  · exact h a (by omega)

theorem AgreesBelow.writeBytes {m : Memory} {s : State} (h : AgreesBelow m s) (B : List Byte) (e : BitVec 4) :
    AgreesBelow (Memory.writeBytes m 0 B) ((s.setMem (Memory.writeBytes s.mem 0 B)).setErr e) := by
  intro a ha
  simp only [byteAt, State.setErr_mem, State.setMem_mem, Memory.read_writeBytes]
  split
  · rfl
  · exact h a ha

/-- From a buffer that differs beyond `LEN` only, a command completes in the same state but for its cells, which again
differ beyond `LEN` only. -/
theorem exec_setMem {i : Instr} {s t : State} {m : Memory} (hm : AgreesBelow m s) (h : exec i s = .next t) :
    ∃ m', exec i (s.setMem m) = .next (t.setMem m') ∧ AgreesBelow m' t := by
  cases i with
  | clr => obtain rfl := execClr_next h; exact ⟨[], rfl, fun _ _ => rfl⟩
  | psh b =>
    obtain ⟨hc, rfl⟩ | ⟨hc, rfl⟩ := execPsh_next h
    · exact ⟨m, execPsh_of_full hc, hm⟩
    · exact ⟨_, execPsh_of_room hc, hm.write_len b 0⟩
  | rdb idx =>
    obtain ⟨hc, rfl⟩ | ⟨hc, b, hb, rfl⟩ := execRdb_next h
    · exact ⟨m, execRdb_of_beyond hc, hm⟩
    · exact ⟨m, execRdb_of_byteAt hc ((hm _ hc).trans hb), hm⟩
  | bfx sb nb =>
    obtain ⟨hn, rfl⟩ | ⟨hn, hc, rfl⟩ | ⟨hn, hc, B, v, hB, hv, rfl⟩ := execBfx_next h
    · exact ⟨m, execBfx_of_wide hn, hm⟩
    · exact ⟨m, execBfx_of_beyond hn hc, hm⟩
    · exact ⟨m, execBfx_of_extract hn hc (hm.frame_setMem.trans hB) hv, hm⟩
  | wht =>
    obtain ⟨hc, rfl⟩ | ⟨hc, B, B', hB, hw, rfl⟩ := execWht_next h
    · exact ⟨m, execWht_of_tooLong hc, hm⟩
    · exact ⟨_, execWht_of_whiten hc (hm.frame_setMem.trans hB) hw, hm.writeBytes B' 0⟩
  | crc =>
    obtain ⟨B, hB, rfl⟩ := execCrc_next h
    exact ⟨m, execCrc_of_frame (hm.frame_setMem.trans hB), hm⟩
  | ckv val =>
    obtain ⟨B, hB, hr⟩ := execCkv_next h
    obtain rfl := reportCheck_eq_next.1 hr
    exact ⟨m, execCkv_of_frame (hm.frame_setMem.trans hB), hm⟩
  | fck =>
    obtain ⟨hc, rfl⟩ | ⟨-, D, hi, lo, hB, hr⟩ := execFck_next h
    · exact ⟨m, execFck_of_short hc, hm⟩
    · obtain rfl := reportCheck_eq_next.1 hr
      exact ⟨m, execFck_of_frame (hm.frame_setMem.trans hB), hm⟩

/-- Settles O55: the two runs end in states that differ in their cells at or beyond `LEN` alone. -/
theorem bytesBeyondLenAreNeverRead : Obligations.BytesBeyondLenAreNeverRead := by
  intro i s t m hm h
  obtain ⟨m', he, hm'⟩ := exec_setMem hm h
  exact ⟨t.setMem m', he, rfl, rfl, rfl, rfl, hm'⟩

end Sys2Proof.Machine
end

section
/-! PROOFS. The big-endian number of a byte sequence, bit by bit (20_memory.md R30), and what `MemRead` returns (R31). -/

namespace Sys2Proof.Machine

theorem bytesToNat_append_singleton (B : List Byte) (c : Byte) :
    bytesToNat (B ++ [c]) = 2 ^ 8 * bytesToNat B + c.toNat := by
  simp [bytesToNat, Nat.mul_comm]

/-- Bit `j` of byte `i` stands eight places higher in the number for each byte after it. -/
theorem testBit_bytesToNat {B : List Byte} {b : Byte} {i j : Nat} (h : B[i]? = some b) (hj : j < 8) :
    (bytesToNat B).testBit (8 * (B.length - 1 - i) + j) = b.getLsbD j := by
  induction B using List.reverseRecOn with
  | nil => simp at h
  | append_singleton B c ih =>
    rw [bytesToNat_append_singleton, Nat.testBit_two_pow_mul_add _ c.isLt, List.length_append, List.length_singleton]
    obtain hi | rfl | hi := Nat.lt_trichotomy i B.length
    · have hB : B[i]? = some b := by rwa [List.getElem?_append_left hi] at h
      rw [if_neg (by omega), ← ih hB]
      congr 1
      omega
    · obtain rfl : c = b := by simpa using h
      rw [if_pos (by omega), show 8 * (B.length + 1 - 1 - B.length) + j = j by omega, BitVec.testBit_toNat]
    · simp [hi] at h

/-- Settles O18: stream bit `p` is bit `7 - p mod 8` of its byte, and that bit's place in the number is
`8 * LEN - 1 - p`. -/
theorem streamBitOfTheNumber : Obligations.StreamBitOfTheNumber := by
  intro B p b h
  have hbit : streamBit B p = b.getLsbD (7 - p % 8) := by simp [streamBit, byteOf, h]
  have hp : p / 8 < B.length := (List.getElem?_eq_some_iff.1 h).1
  refine ⟨hbit, ?_⟩
  rw [hbit, ← testBit_bytesToNat h (by omega)]
  congr 1
  omega

/-- Byte `k` from the top of the number's `8 * len(B)` bits is byte `k` of the sequence. -/
theorem extractLsb'_bytesToNat {B : List Byte} {b : Byte} {k : Nat} (h : B[k]? = some b) :
    (BitVec.ofNat (8 * B.length) (bytesToNat B)).extractLsb' (8 * (B.length - 1 - k)) 8 = b := by
  have hk : k < B.length := (List.getElem?_eq_some_iff.1 h).1
  refine BitVec.eq_of_getLsbD_eq fun j hj => ?_
  have hlt : 8 * (B.length - 1 - k) + j < 8 * B.length := by omega
  rw [BitVec.getLsbD_extractLsb', BitVec.getLsbD_ofNat, testBit_bytesToNat h hj]
  simp [hj, hlt]

/-- `MemRead` has no value beyond `LEN`. -/
theorem memRead_of_beyond {s : State} {addr n : Nat} (h : s.len.toNat < addr + n) : memRead s addr n = none :=
  if_neg (by omega)

/-- `MemRead` has a value wherever its bytes are below `LEN` and the frame can be read. -/
theorem memRead_of_frame {s : State} {B : List Byte} {addr n : Nat} (hB : frame s = some B) (hn : 1 ≤ n)
    (h : addr + n ≤ s.len.toNat) : ∃ v, memRead s addr n = some v := by
  obtain ⟨hlen, hbyte⟩ := frame_eq_some.1 hB
  obtain ⟨bs, hbs⟩ : ∃ bs, Memory.readBytes s.mem addr n = some bs := by
    refine Memory.readBytes_isSome fun k hk => ?_
    change (byteAt s (addr + k)).isSome = true
    rw [hbyte _ (by omega), List.getElem?_eq_getElem (by omega), Option.isSome_some]
  exact ⟨_, by rw [memRead, if_pos ⟨hn, h⟩, hbs]; rfl⟩

/-- A value of `MemRead` holds the bytes from `addr` on, first byte most significant. -/
theorem byteAt_of_memRead {s : State} {addr n : Nat} {v : BitVec (8 * n)} (h : memRead s addr n = some v) {k : Nat}
    (hk : k < n) : byteAt s (addr + k) = some (v.extractLsb' (8 * (n - 1 - k)) 8) := by
  unfold memRead at h
  split at h
  · obtain ⟨bs, hbs, rfl⟩ := Option.map_eq_some_iff.1 h
    obtain ⟨rfl, hread⟩ := Memory.readBytes_eq_some.1 hbs
    have hget : bs[k]? = some bs[k] := List.getElem?_eq_getElem hk
    rw [extractLsb'_bytesToNat hget, ← hget]
    exact hread k hk
  · cases h

/-- Settles O16: inside the frame `MemRead` has a value, and any value it has is made of those bytes. -/
theorem memReadIsBigEndian : Obligations.MemReadIsBigEndian := by
  intro s addr n
  refine ⟨fun B hB hn h => ?_, memRead_of_beyond⟩
  obtain ⟨v, hv⟩ := memRead_of_frame hB hn h
  exact ⟨v, hv, fun k hk => byteAt_of_memRead hv hk⟩

end Sys2Proof.Machine
end

section
/-! PROOFS. The read commands are idempotent (20_memory.md R37): they write `RES`, `ACC` and `ERR` alone, and read none of
the three. -/

namespace Sys2Proof.Machine

/-- Settles O56: each outcome's cause is about `LEN` and the cells, which it keeps, so the same outcome follows again. -/
theorem readCommandsAreIdempotent : Obligations.ReadCommandsAreIdempotent := by
  intro i s t hread h
  cases i with
  | clr => cases hread
  | psh b => cases hread
  | wht => cases hread
  | rdb idx =>
    obtain ⟨hc, rfl⟩ | ⟨hc, b, hb, rfl⟩ := execRdb_next h
    · exact execRdb_of_beyond hc
    · exact execRdb_of_byteAt hc hb
  | bfx sb nb =>
    obtain ⟨hn, rfl⟩ | ⟨hn, hc, rfl⟩ | ⟨hn, hc, B, v, hB, hv, rfl⟩ := execBfx_next h
    · exact execBfx_of_wide hn
    · exact execBfx_of_beyond hn hc
    · exact execBfx_of_extract hn hc hB hv
  | crc =>
    obtain ⟨B, hB, rfl⟩ := execCrc_next h
    exact execCrc_of_frame hB
  | ckv val =>
    obtain ⟨B, hB, hr⟩ := execCkv_next h
    obtain rfl := reportCheck_eq_next.1 hr
    exact execCkv_of_frame hB
  | fck =>
    obtain ⟨hc, rfl⟩ | ⟨-, D, hi, lo, hB, hr⟩ := execFck_next h
    · exact execFck_of_short hc
    · obtain rfl := reportCheck_eq_next.1 hr
      exact execFck_of_frame hB

end Sys2Proof.Machine
end

section
/-! PROOFS. The fields of a command word as numbers (30_encoding.md R43), and the three classes of illegal words
(R48 to R50) in the order of R47. -/

namespace Sys2Proof

theorem eq_zero_iff_toNat_eq_zero {n : Nat} (x : BitVec n) : x = 0 ↔ x.toNat = 0 := by
  rw [← BitVec.toNat_inj]
  rfl

theorem opOf_toNat (w : Word) : (opOf w).toNat = w.toNat / 2 ^ 28 := by
  rw [opOf, BitVec.extractLsb'_toNat, Nat.shiftRight_eq_div_pow]
  exact Nat.mod_eq_of_lt (by have := w.isLt; omega)

theorem nbOf_toNat (w : Word) : (nbOf w).toNat = w.toNat / 2 ^ 22 % 64 := by
  rw [nbOf, BitVec.extractLsb'_toNat, Nat.shiftRight_eq_div_pow]

theorem rsvOf_toNat (w : Word) : (rsvOf w).toNat = w.toNat / 2 ^ 16 % 64 := by
  rw [rsvOf, BitVec.extractLsb'_toNat, Nat.shiftRight_eq_div_pow]

theorem immOf_toNat (w : Word) : (immOf w).toNat = w.toNat % 2 ^ 16 := by
  rw [immOf, BitVec.extractLsb'_toNat, Nat.shiftRight_zero]

/-- The high byte of an immediate is zero exactly if the immediate is a byte. -/
theorem highByte_eq_zero_iff (v : Half) : v.extractLsb' 8 8 = 0 ↔ v.toNat < 256 := by
  have hv := v.isLt
  rw [← BitVec.toNat_inj, BitVec.extractLsb'_toNat, Nat.shiftRight_eq_div_pow]
  change v.toNat / 2 ^ 8 % 2 ^ 8 = 0 ↔ _
  omega

/-- The opcode is reserved (R48). -/
abbrev ReservedOpcode (w : Word) : Prop := (opOf w).toNat = 0 ∨ 9 ≤ (opOf w).toNat

/-- A field the format of the word's opcode does not use is not zero (R49). -/
abbrev UnusedFieldSet (w : Word) : Prop :=
  (rsvOf w).toNat ≠ 0 ∨ ((opOf w).toNat ≠ 4 ∧ (nbOf w).toNat ≠ 0) ∨
    (((opOf w).toNat = 1 ∨ (opOf w).toNat = 5 ∨ (opOf w).toNat = 6 ∨ (opOf w).toNat = 8) ∧ (immOf w).toNat ≠ 0) ∨
    ((opOf w).toNat = 2 ∧ 256 ≤ (immOf w).toNat)

/-- The word is `BFX` with a width above 32 (R50). -/
abbrev WidthTooLarge (w : Word) : Prop := (opOf w).toNat = 4 ∧ 32 < (nbOf w).toNat

/-- R47: checks (2) to (5) give one class of illegal words. -/
theorem illegalOf_eq (w : Word) :
    illegalOf w =
      if ReservedOpcode w then some .reservedOpcode
      else if UnusedFieldSet w then some .reservedField
      else if WidthTooLarge w then some .widthAbove32
      else none := by
  have hhigh : ¬(immOf w).extractLsb' 8 8 = 0 ↔ 256 ≤ (immOf w).toNat := by
    rw [highByte_eq_zero_iff, Nat.not_lt]
  simp only [illegalOf, reservedOp, formatN, decide_eq_true_eq, Ne, eq_zero_iff_toNat_eq_zero (rsvOf w),
    eq_zero_iff_toNat_eq_zero (nbOf w), eq_zero_iff_toNat_eq_zero (immOf w), hhigh, ReservedOpcode, UnusedFieldSet,
    WidthTooLarge, ite_or]

theorem illegalOf_of_reservedOpcode {w : Word} (h : ReservedOpcode w) : illegalOf w = some .reservedOpcode := by
  rw [illegalOf_eq, if_pos h]

theorem illegalOf_of_unusedFieldSet {w : Word} (h : ¬ReservedOpcode w) (hf : UnusedFieldSet w) :
    illegalOf w = some .reservedField := by
  rw [illegalOf_eq, if_neg h, if_pos hf]

theorem illegalOf_of_widthTooLarge {w : Word} (h : ¬ReservedOpcode w) (hf : ¬UnusedFieldSet w)
    (hw : WidthTooLarge w) : illegalOf w = some .widthAbove32 := by
  rw [illegalOf_eq, if_neg h, if_neg hf, if_pos hw]

theorem illegalOf_eq_none_iff {w : Word} :
    illegalOf w = none ↔ ¬ReservedOpcode w ∧ ¬UnusedFieldSet w ∧ ¬WidthTooLarge w := by
  rw [illegalOf_eq]
  split_ifs <;> simp [*]

end Sys2Proof
end

section
/-! PROOFS. A command's word is its row's opcode and its operand fields, and a legal word is the word of the command it
decodes to (30_encoding.md R44 to R47, R55). -/

namespace Sys2Proof

open Sys2Proof.Laws.EncodedFields (widthField)

/-- The `op` field a command is to carry (R46). -/
def opcodeField : Instr → BitVec 4
  | .clr => 1
  | .psh _ => 2
  | .rdb _ => 3
  | .bfx _ _ => 4
  | .wht => 5
  | .crc => 6
  | .ckv _ => 7
  | .fck => 8

/-- The `imm` field a command is to carry (R44, R45). -/
def immField : Instr → Half
  | .clr => 0
  | .psh byte => byte.setWidth 16
  | .rdb idx => idx
  | .bfx sb _ => sb
  | .wht => 0
  | .crc => 0
  | .ckv val => val
  | .fck => 0

theorem encode_eq_wordOf (i : Instr) : encode i = wordOf (opcodeField i) (widthField i) (immField i) := by
  cases i <;> rfl

/-- Two words are equal exactly if their four fields are (R43). -/
theorem word_eq_iff {w v : Word} :
    w = v ↔ opOf w = opOf v ∧ nbOf w = nbOf v ∧ rsvOf w = rsvOf v ∧ immOf w = immOf v := by
  simp only [← BitVec.toNat_inj, opOf_toNat, nbOf_toNat, rsvOf_toNat, immOf_toNat]
  omega

/-- The word of a command, by its fields as numbers. -/
theorem eq_encode_iff {w : Word} {i : Instr} :
    w = encode i ↔ (opOf w).toNat = (opcodeField i).toNat ∧ (nbOf w).toNat = (widthField i).toNat ∧
      (rsvOf w).toNat = 0 ∧ (immOf w).toNat = (immField i).toNat := by
  rw [word_eq_iff, encode_eq_wordOf, opOf_wordOf, nbOf_wordOf, rsvOf_wordOf, immOf_wordOf]
  simp only [← BitVec.toNat_inj]
  rfl

theorem decode_of_illegalOf {w : Word} {why : Illegal} (h : illegalOf w = some why) : decode w = .error why := by
  rw [decode, h]

theorem decode_of_commandOf {w : Word} {i : Instr} (h : illegalOf w = none) (hi : commandOf w = some i) :
    decode w = .ok i := by
  rw [decode, h, hi]

theorem legal_of_decode {w : Word} {i : Instr} (h : decode w = .ok i) : illegalOf w = none ∧ commandOf w = some i := by
  unfold decode at h
  split at h
  · cases h
  · rename_i hlegal hi
    cases h
    exact ⟨hlegal, hi⟩
  · cases h

theorem commandOf_encode (i : Instr) : commandOf (encode i) = some i := by
  cases i <;> simp [encode, commandOf, BitVec.extractLsb'_setWidth_of_le]

theorem illegalOf_encode {i : Instr} (h : i.wellFormed = true) : illegalOf (encode i) = none := by
  rw [illegalOf_eq_none_iff]
  cases i with
  | psh byte =>
    have hbyte := byte.isLt
    simp [encode]
    omega
  | bfx sb nb => simpa [encode, Instr.wellFormed] using h
  | _ => simp [encode]

/-- The command of a legal word takes its operands from the fields, and the fields it does not use are zero. -/
theorem eq_encode_of_commandOf {w : Word} {i : Instr} (h : illegalOf w = none) (hi : commandOf w = some i) :
    w = encode i ∧ i.wellFormed = true := by
  obtain ⟨-, hfields, hwidth⟩ := illegalOf_eq_none_iff.1 h
  rw [UnusedFieldSet] at hfields
  rw [WidthTooLarge] at hwidth
  rw [eq_encode_iff]
  unfold commandOf at hi
  split at hi <;> cases hi
  all_goals
    simp [opcodeField, widthField, immField, Instr.wellFormed]
    omega

/-- Settles O3: the word of a well-formed command passes every check, and its row reads the operands back. -/
theorem decodeOfEncode : Obligations.DecodeOfEncode :=
  fun i h => decode_of_commandOf (illegalOf_encode h) (commandOf_encode i)

/-- Settles O4: every bit of a legal word is a field of its command or a checked zero. -/
theorem encodeOfDecode : Obligations.EncodeOfDecode := by
  intro w i h
  obtain ⟨hlegal, hi⟩ := legal_of_decode h
  exact (eq_encode_of_commandOf hlegal hi).imp_left Eq.symm

end Sys2Proof
end

section
/-! PROOFS. Decoding by the fields as numbers (30_encoding.md R47), and the step of an illegal word (R48 to R50). -/

namespace Sys2Proof

open Sys2Proof.Machine
open Sys2Proof.Laws.EncodedFields (widthField)

/-- A word decodes to a command exactly if the command is well formed and the word is its word (R55). -/
theorem decode_eq_ok_iff {w : Word} {i : Instr} : decode w = .ok i ↔ w = encode i ∧ i.wellFormed = true := by
  refine ⟨fun h => ?_, ?_⟩
  · obtain ⟨hlegal, hi⟩ := legal_of_decode h
    exact eq_encode_of_commandOf hlegal hi
  · rintro ⟨rfl, hi⟩
    exact decodeOfEncode i hi

/-- A word with the fields of a well-formed command, read as numbers, decodes to it. -/
theorem decode_of_fields {w : Word} {i : Instr} (hi : i.wellFormed = true)
    (hop : (opOf w).toNat = (opcodeField i).toNat) (hnb : (nbOf w).toNat = (widthField i).toNat)
    (hrsv : (rsvOf w).toNat = 0) (himm : (immOf w).toNat = (immField i).toNat) : decode w = .ok i :=
  decode_eq_ok_iff.2 ⟨eq_encode_iff.2 ⟨hop, hnb, hrsv, himm⟩, hi⟩

/-- The command of a legal word is of the row its opcode names. -/
theorem opOf_of_decode {w : Word} {i : Instr} (h : decode w = .ok i) : opOf w = opcodeField i := by
  obtain ⟨rfl, -⟩ := decode_eq_ok_iff.1 h
  rw [encode_eq_wordOf, opOf_wordOf]

/-- A word that fails no check decodes. -/
theorem exists_decode_of_legal {w : Word} (h : illegalOf w = none) : ∃ i, decode w = .ok i := by
  obtain ⟨hop, -⟩ := illegalOf_eq_none_iff.1 h
  rw [ReservedOpcode] at hop
  have hrow : (opOf w).toNat = 1 ∨ (opOf w).toNat = 2 ∨ (opOf w).toNat = 3 ∨ (opOf w).toNat = 4 ∨
      (opOf w).toNat = 5 ∨ (opOf w).toNat = 6 ∨ (opOf w).toNat = 7 ∨ (opOf w).toNat = 8 := by omega
  obtain ⟨i, hi⟩ : ∃ i, commandOf w = some i := by
    rw [← Option.isSome_iff_exists]
    rcases hrow with hop | hop | hop | hop | hop | hop | hop | hop <;> simp [commandOf, hop]
  exact ⟨i, decode_of_commandOf h hi⟩

/-- Settles O1: an illegal word is of the first class whose check it fails, and a word that fails none has the fields of
its row's command. -/
theorem decodeChecksInOrder : Obligations.DecodeChecksInOrder := by
  intro w op nb rsv imm hop hnb hrsv himm
  simp only [← opOf_toNat, ← nbOf_toNat, ← rsvOf_toNat, ← immOf_toNat] at hop hnb hrsv himm
  subst hop hnb hrsv himm
  refine ⟨fun h => decode_of_illegalOf (illegalOf_of_reservedOpcode h), fun h1 h8 h => ?unused, fun ho hr hn => ?wide,
    decode_of_fields (i := .clr) rfl, fun ho hn hr hi => ?psh,
    fun ho hn hr => ?rdb, fun ho hn hr => ?bfx,
    decode_of_fields (i := .wht) rfl,
    decode_of_fields (i := .crc) rfl, fun ho hn hr => ?ckv,
    decode_of_fields (i := .fck) rfl⟩
  case unused =>
    exact decode_of_illegalOf (illegalOf_of_unusedFieldSet (by rw [ReservedOpcode]; omega) h)
  case wide =>
    exact decode_of_illegalOf (illegalOf_of_widthTooLarge (by rw [ReservedOpcode]; omega)
      (by rw [UnusedFieldSet]; omega) ⟨ho, hn⟩)
  case psh => exact decode_of_fields rfl ho hn hr (by simp [immField]; omega)
  case rdb => exact decode_of_fields rfl ho hn hr (by simp [immField])
  case bfx =>
    exact decode_of_fields (by simpa [Instr.wellFormed] using hn) ho (by simp [widthField]) hr (by simp [immField])
  case ckv => exact decode_of_fields rfl ho hn hr (by simp [immField])

/-- Issuing an illegal word sets `ERR` to `E_ILL` and changes nothing else (R48). -/
theorem step_of_decode_error {s : State} {w : Word} {rest : List HostMove} {why : Illegal}
    (hm : s.moves = .issue w :: rest) (h : decode w = .error why) :
    step s = .next ((s.setMoves rest).setErr 1) := by
  rw [step, stepHost, hm]
  simp only [perform, issueWord, h]
  rfl

/-- Settles O2: each of the listed words fails one of the decoder's checks. -/
theorem illegalWordsOnlySetErr : Obligations.IllegalWordsOnlySetErr := by
  intro s w rest op nb rsv imm hop hnb hrsv himm hbad
  simp only [← opOf_toNat, ← nbOf_toNat, ← rsvOf_toNat, ← immOf_toNat] at hop hnb hrsv himm
  subst hop hnb hrsv himm
  have hillegal : illegalOf w ≠ none := fun h => by
    obtain ⟨hop, hfields, hwidth⟩ := illegalOf_eq_none_iff.1 h
    exact hbad.elim hop fun h => h.elim hfields hwidth
  obtain ⟨why, hwhy⟩ := Option.ne_none_iff_exists'.1 hillegal
  have hd := decode_of_illegalOf hwhy
  exact ⟨⟨why, hd⟩, fun hm => step_of_decode_error hm hd⟩

/-- Settles O6: each word is the word of its command. -/
theorem sampleWordsDecode : Obligations.SampleWordsDecode := by
  simp only [Obligations.SampleWordsDecode, decode_eq_ok_iff]
  decide

end Sys2Proof
end

section
/-! PROOFS. The `match` and `mask` of the opcode map (30_encoding.md R46), field by field. -/

namespace Sys2Proof

theorem rowMatch_eq_wordOf (i : Instr) : rowMatch i = wordOf (opcodeField i) 0 0 := by
  cases i <;> (rw [rowMatch, opcodeField]; decide)

/-- Two rows have the same `match` exactly if they have the same opcode. -/
theorem rowMatch_eq_iff {i j : Instr} : rowMatch i = rowMatch j ↔ opcodeField i = opcodeField j := by
  rw [rowMatch_eq_wordOf, rowMatch_eq_wordOf]
  exact ⟨fun h => by simpa using congrArg opOf h, fun h => by rw [h]⟩

theorem opOf_rowMask (i : Instr) : opOf (rowMask i) = BitVec.allOnes 4 := by
  cases i <;> (rw [rowMask]; decide)

theorem rsvOf_rowMask (i : Instr) : rsvOf (rowMask i) = BitVec.allOnes 6 := by
  cases i <;> (rw [rowMask]; decide)

theorem nbOf_rowMask (i : Instr) :
    nbOf (rowMask i) = if (opcodeField i).toNat = 4 then 0 else BitVec.allOnes 6 := by
  cases i <;> (rw [rowMask, opcodeField]; decide)

theorem immOf_rowMask (i : Instr) :
    immOf (rowMask i) =
      if formatN (opcodeField i) = true then BitVec.allOnes 16 else if (opcodeField i).toNat = 2 then 0xFF00 else 0 := by
  cases i <;> (rw [rowMask, opcodeField]; decide)

/-- The mask of format I8 lets exactly the bytes pass as immediates. -/
theorem and_highByteMask_eq_zero_iff (v : Half) : v &&& 0xFF00 = 0 ↔ v.toNat < 256 := by
  have hlow : (v &&& 0x00FF).toNat = v.toNat % 256 := Nat.and_two_pow_sub_one_eq_mod v.toNat 8
  have hsplit : v = v &&& 0xFF00 ||| v &&& 0x00FF := by
    rw [← BitVec.and_or_distrib_left]
    exact BitVec.and_allOnes.symm
  constructor
  · intro h
    rw [h, show (0 : Half) ||| v &&& 0x00FF = v &&& 0x00FF from BitVec.zero_or] at hsplit
    rw [hsplit, hlow]
    exact Nat.mod_lt _ (by decide)
  · intro h
    have hv : v &&& 0x00FF = v := BitVec.eq_of_toNat_eq (by omega)
    rw [← hv, BitVec.and_assoc]
    exact BitVec.and_zero

theorem opOf_and (w v : Word) : opOf (w &&& v) = opOf w &&& opOf v := BitVec.extractLsb'_and

theorem nbOf_and (w v : Word) : nbOf (w &&& v) = nbOf w &&& nbOf v := BitVec.extractLsb'_and

theorem rsvOf_and (w v : Word) : rsvOf (w &&& v) = rsvOf w &&& rsvOf v := BitVec.extractLsb'_and

theorem immOf_and (w v : Word) : immOf (w &&& v) = immOf w &&& immOf v := BitVec.extractLsb'_and

/-- `CW and mask = match`: the row's opcode, and zero in every field its format does not use. -/
theorem and_rowMask_eq_rowMatch_iff {w : Word} {i : Instr} :
    w &&& rowMask i = rowMatch i ↔ opOf w = opcodeField i ∧ ¬UnusedFieldSet w := by
  rw [word_eq_iff, rowMatch_eq_wordOf, opOf_wordOf, nbOf_wordOf, rsvOf_wordOf, immOf_wordOf, opOf_and, nbOf_and,
    rsvOf_and, immOf_and, opOf_rowMask, nbOf_rowMask, rsvOf_rowMask, immOf_rowMask, BitVec.and_allOnes,
    BitVec.and_allOnes]
  refine and_congr_right fun hop => ?_
  rw [← hop, UnusedFieldSet]
  have hnb : nbOf w &&& (if (opOf w).toNat = 4 then 0 else BitVec.allOnes 6) = 0 ↔
      ((opOf w).toNat ≠ 4 → (nbOf w).toNat = 0) := by
    split_ifs with h4
    · simp [h4]
    · rw [BitVec.and_allOnes, eq_zero_iff_toNat_eq_zero]
      exact ⟨fun h _ => h, fun h => h h4⟩
  have himm : immOf w &&& (if formatN (opOf w) = true then BitVec.allOnes 16
      else if (opOf w).toNat = 2 then 0xFF00 else 0) = 0 ↔
      (formatN (opOf w) = true → (immOf w).toNat = 0) ∧ ((opOf w).toNat = 2 → (immOf w).toNat < 256) := by
    split_ifs with hN h2
    · rw [BitVec.and_allOnes, eq_zero_iff_toNat_eq_zero]
      exact ⟨fun h => ⟨fun _ => h, fun _ => by omega⟩, fun h => h.1 hN⟩
    · rw [and_highByteMask_eq_zero_iff]
      exact ⟨fun h => ⟨fun hN' => absurd hN' hN, fun _ => h⟩, fun h => h.2 h2⟩
    · simp [hN, h2]
  rw [hnb, himm, eq_zero_iff_toNat_eq_zero, formatN, decide_eq_true_eq]
  omega

/-- What `CW and mask = match` leaves of the checks is the width (R46, R50). -/
theorem and_rowMask_and_width_iff {w : Word} {i : Instr} :
    w &&& rowMask i = rowMatch i ∧ (nbOf w).toNat ≤ 32 ↔ opOf w = opcodeField i ∧ illegalOf w = none := by
  rw [and_rowMask_eq_rowMatch_iff, illegalOf_eq_none_iff]
  constructor
  · rintro ⟨⟨hop, hfields⟩, hnb⟩
    refine ⟨hop, ?_, hfields, fun h => Nat.not_lt.2 hnb h.2⟩
    rw [ReservedOpcode, hop]
    cases i <;> (rw [opcodeField]; decide)
  · rintro ⟨hop, -, hfields, hwidth⟩
    refine ⟨⟨hop, hfields⟩, ?_⟩
    rw [UnusedFieldSet] at hfields
    rw [WidthTooLarge] at hwidth
    omega

/-- A word decodes to a command of a row exactly if it is legal and has the row's opcode. -/
theorem decode_row_iff {w : Word} {i : Instr} :
    (∃ j, decode w = .ok j ∧ rowMatch j = rowMatch i) ↔ opOf w = opcodeField i ∧ illegalOf w = none := by
  constructor
  · rintro ⟨j, hj, hrow⟩
    exact ⟨(opOf_of_decode hj).trans (rowMatch_eq_iff.1 hrow), (legal_of_decode hj).1⟩
  · rintro ⟨hop, hlegal⟩
    obtain ⟨j, hj⟩ := exists_decode_of_legal hlegal
    exact ⟨j, hj, rowMatch_eq_iff.2 ((opOf_of_decode hj).symm.trans hop)⟩

/-- Settles O5: on both sides the word is legal and has the row's opcode. -/
theorem matchAndMaskSelectTheRow : Obligations.MatchAndMaskSelectTheRow := by
  intro w i
  rw [← nbOf_toNat, and_rowMask_and_width_iff, decode_row_iff]

end Sys2Proof
end

section
/-! PROOFS. The assembler and the disassembler (30_encoding.md R53 to R55). -/

namespace Sys2Proof.Machine

/-- The operands of a well-formed command are in range, so its line assembles to its word (R53). -/
theorem assemble_lineOf {i : Instr} (h : i.wellFormed = true) : assemble (lineOf i) = some [encode i] := by
  cases i with
  | psh byte =>
    have hbyte : byte.toNat ≤ 255 := Nat.le_of_lt_succ byte.isLt
    simp [assemble, lineOf, expandLine, hbyte]
  | rdb idx =>
    have hidx : idx.toNat ≤ 65535 := Nat.le_of_lt_succ idx.isLt
    simp [assemble, lineOf, expandLine, hidx]
  | bfx sb nb =>
    have hsb : sb.toNat ≤ 65535 := Nat.le_of_lt_succ sb.isLt
    have hnb : nb.toNat ≤ 32 := of_decide_eq_true h
    simp [assemble, lineOf, expandLine, hsb, hnb]
  | ckv val =>
    have hval : val.toNat ≤ 65535 := Nat.le_of_lt_succ val.isLt
    simp [assemble, lineOf, expandLine, hval]
  | _ => rfl

/-- Bytes are in range, and `LDF` takes each of them unchanged (R54). -/
theorem expandLine_ldf_bytes (B : List Byte) : expandLine (.ldf (B.map BitVec.toNat)) = some (loadFrame B) := by
  have hrange : ∀ b ∈ B, b.toNat ≤ 255 := fun b _ => Nat.le_of_lt_succ b.isLt
  have hbytes : (B.map BitVec.toNat).map (BitVec.ofNat 8) = B := by
    rw [List.map_map]
    exact List.map_id'' (fun b => by simp) B
  simpa [expandLine, loadFrame, hbytes] using hrange

/-- Settles O7: `lineOf` prints what `expandLine` reads, and each range check of `expandLine` refuses. -/
theorem assemblerInverse : Obligations.AssemblerInverse := by
  refine ⟨fun w i h => ?legal, fun w why h => ?illegal, rfl, fun B => ?loadFrame,
    fun n => ⟨fun h => ?psh, fun h => ⟨?rdb, ?ckv⟩⟩, fun sb nb h => ?bfx, fun bs h => ?ldf⟩
  case legal =>
    obtain ⟨rfl, hi⟩ := decode_eq_ok_iff.1 h
    exact ⟨lineOf i, by rw [disassemble, h], assemble_lineOf hi, by cases i <;> nofun⟩
  case illegal => rw [disassemble, h]
  case loadFrame =>
    rw [assemble, expandLine_ldf_bytes]
    simp [loadFrame, Function.comp_def]
  case psh => simp [assemble, expandLine, h]
  case rdb => simp [assemble, expandLine, h]
  case ckv => simp [assemble, expandLine, h]
  case bfx =>
    have hrange : ¬(sb ≤ 65535 ∧ nb ≤ 32) := by omega
    simp only [assemble, expandLine, if_neg hrange, Option.map_none]
  case ldf => simpa [assemble, expandLine] using h

end Sys2Proof.Machine
end

section
/-! PROOFS. The bits of an extracted field and the number they are (40_bitfield_extract.md R57 to R60). -/

namespace Sys2Proof.Machine

theorem extract_eq_some_iff {B : List Byte} {start n : Nat} {v : Word} :
    extract B start n = some v ↔ (n ≤ 32 ∧ start + n ≤ 8 * B.length) ∧ extractLoop B start n = v := by
  rw [extract, Option.ite_none_right_eq_some, Option.some_inj]

/-- Settles O23: `extract` is guarded by its domain alone. -/
theorem extractHasAValueOnItsDomain : Obligations.ExtractHasAValueOnItsDomain := by
  intro B start n
  simp only [extract_eq_some_iff, exists_and_left, exists_eq', and_true]

/-- Each iteration of R57's loop moves the bits read so far up by one, so bit `j` after `n` of them was read `j` before
the last. -/
theorem getLsbD_extractLoop {B : List Byte} {start n : Nat} (hn : n ≤ 32) (j : Nat) :
    (extractLoop B start n).getLsbD j = (decide (j < n) && streamBit B (start + (n - 1 - j))) := by
  induction n generalizing j with
  | zero => simp [extractLoop]
  | succ n ih =>
    rw [extractLoop, BitVec.getLsbD_or, BitVec.getLsbD_shiftLeft]
    cases j with
    | zero => cases h : streamBit B (start + n) <;> simp [h]
    | succ j =>
      have hbit : (if streamBit B (start + n) then 1 else 0 : Word).getLsbD (j + 1) = false := by
        split <;> simp
      rw [hbit, Nat.add_sub_cancel, ih (by omega), show n + 1 - 1 - (j + 1) = n - 1 - j by omega]
      by_cases hj : j < n
      · have h32 : j + 1 < 32 := by omega
        simp [hj, h32]
      · simp [hj]

/-- Settles O24: bit `n - 1 - k` was read in iteration `k`. -/
theorem extractReadsTheStream : Obligations.ExtractReadsTheStream := by
  intro B start n v h
  obtain ⟨⟨hn, -⟩, rfl⟩ := extract_eq_some_iff.1 h
  refine ⟨fun k hk => ?_, fun j hj => ?_⟩
  · rw [getLsbD_extractLoop hn, decide_eq_true (by omega), Bool.true_and, show n - 1 - (n - 1 - k) = k by omega]
  · rw [getLsbD_extractLoop hn, decide_eq_false (by omega), Bool.false_and]

theorem bytesToNat_lt (B : List Byte) : bytesToNat B < 2 ^ (8 * B.length) := by
  induction B using List.reverseRecOn with
  | nil => decide
  | append_singleton B c ih =>
    have hc := c.isLt
    rw [bytesToNat_append_singleton, List.length_append, List.length_singleton, Nat.mul_add, Nat.pow_add]
    omega

/-- A stream bit inside the sequence is a bit of its big-endian number (20_memory.md R30). -/
theorem streamBit_eq_testBit {B : List Byte} {p : Nat} (hp : p < 8 * B.length) :
    streamBit B p = (bytesToNat B).testBit (8 * B.length - 1 - p) :=
  (streamBitOfTheNumber B p _ (List.getElem?_eq_getElem (show p / 8 < B.length by omega))).2

/-- Settles O25: both sides have the same bits, those of the field below `n` and zeros from `n` up. -/
theorem extractClosedForm : Obligations.ExtractClosedForm := by
  intro B start n v h
  obtain ⟨⟨hn, hdom⟩, rfl⟩ := extract_eq_some_iff.1 h
  refine Nat.eq_of_testBit_eq fun j => ?_
  rw [BitVec.testBit_toNat, getLsbD_extractLoop hn, Nat.testBit_mod_two_pow, Nat.testBit_div_two_pow]
  by_cases hj : j < n
  · rw [streamBit_eq_testBit (by omega),
      show 8 * B.length - 1 - (start + (n - 1 - j)) = j + (8 * B.length - start - n) by omega]
  · simp only [hj, decide_false, Bool.false_and]

theorem streamBit_congr {B C : List Byte} {p : Nat} (h : B[p / 8]? = C[p / 8]?) : streamBit B p = streamBit C p := by
  simp only [streamBit, byteOf, List.getD_eq_getElem?_getD, h]

theorem extractLoop_congr {B C : List Byte} {start n : Nat}
    (h : ∀ k, k < n → streamBit B (start + k) = streamBit C (start + k)) :
    extractLoop B start n = extractLoop C start n := by
  induction n with
  | zero => rfl
  | succ n ih => rw [extractLoop, extractLoop, ih fun k hk => h k (by omega), h n (by omega)]

/-- Settles O26: the domains agree with the lengths, and the loop reads the stream bits of the field's bytes alone. -/
theorem extractDependsOnItsBytesOnly : Obligations.ExtractDependsOnItsBytesOnly := by
  intro B C start n hlen hbytes
  have hloop : extractLoop B start n = extractLoop C start n :=
    extractLoop_congr fun k hk => streamBit_congr (hbytes _ (by omega) (by omega) (by omega))
  rw [extract, extract, hlen, hloop]

end Sys2Proof.Machine
end

section
/-! PROOFS. The command `BFX` (40_bitfield_extract.md R61 to R63). -/

namespace Sys2Proof.Machine

/-- The word of `BFX` as a number: its fields at their places (30_encoding.md R43, R46). -/
theorem encode_bfx_toNat (sb : Half) (nb : BitVec 6) :
    (encode (.bfx sb nb)).toNat = 0x40000000 + nb.toNat * 2 ^ 22 + sb.toNat := by
  have h : (encode (.bfx sb nb)).toNat = ((4 * 2 ^ 6 + nb.toNat) * 2 ^ 6 + 0) * 2 ^ 16 + sb.toNat := by
    simp only [encode, wordOf, toNat_append_eq_add]
    rfl
  omega

/-- `extract` has a value on every field `BFX` can read (R61, R64). -/
theorem exists_extract_of_frame {s : State} {B : List Byte} {start n : Nat} (hB : frame s = some B) (hn : n ≤ 32)
    (h : start + n ≤ 8 * s.len.toNat) : ∃ v, extract B start n = some v :=
  (extractHasAValueOnItsDomain B start n).2 ⟨hn, by rwa [frame_length hB]⟩

/-- Settles O27: the field is in the domain of `extract` exactly if it ends within the frame. -/
theorem bfxExtractsOrReportsRange : Obligations.BfxExtractsOrReportsRange := by
  refine ⟨encode_bfx_toNat, fun sb nb s B hB hn h => ?_, fun sb nb s hn h => execBfx_of_beyond hn h⟩
  obtain ⟨v, hv⟩ := exists_extract_of_frame hB hn h
  exact ⟨v, hv, execBfx_of_extract hn h hB hv⟩

/-- A field of no bits is 0, up to one past the last bit (R62 (a)). -/
theorem extract_zero_width {B : List Byte} {start : Nat} (h : start ≤ 8 * B.length) : extract B start 0 = some 0 :=
  extract_eq_some_iff.2 ⟨⟨Nat.zero_le _, h⟩, rfl⟩

/-- The field of all bits is the big-endian number of the bytes (R62 (e)). -/
theorem extract_whole {B : List Byte} (h : 8 * B.length ≤ 32) :
    extract B 0 (8 * B.length) = some (BitVec.ofNat 32 (bytesToNat B)) := by
  obtain ⟨v, hv⟩ := (extractHasAValueOnItsDomain B 0 (8 * B.length)).2 ⟨h, by omega⟩
  have hclosed := extractClosedForm B 0 _ v hv
  rw [Nat.sub_zero, Nat.sub_self, Nat.pow_zero, Nat.div_one, Nat.mod_eq_of_lt (bytesToNat_lt B)] at hclosed
  rw [hv, ← hclosed, BitVec.ofNat_toNat, BitVec.setWidth_eq]

/-- Settles O29: a field of no bits, and the field of all bits. -/
theorem bfxZeroAndWholeWidths : Obligations.BfxZeroAndWholeWidths := by
  refine ⟨fun sb s B hB h => ?zero, fun nb s B hB hlen hnb => ?whole⟩
  case zero =>
    exact execBfx_of_extract (by decide) h hB (extract_zero_width (by rwa [frame_length hB]))
  case whole =>
    refine execBfx_of_extract (by omega) (by simp [hnb]) hB ?_
    rw [hnb, ← frame_length hB]
    exact extract_whole (by rw [frame_length hB]; omega)

end Sys2Proof.Machine
end

section
/-! PROOFS. The function `whiten` (41_whitening.md R67, R69): byte `i` is xored with byte `i` of the table, and a second
xor with the same byte takes the first one back. -/

namespace Sys2Proof.Machine

theorem whiten_eq_some_iff {c : Config} {B B' : List Byte} :
    whiten c B = some B' ↔ B.length ≤ c.maxLen ∧ List.zipWith (· ^^^ ·) B c.wt = B' := by
  rw [whiten, Option.ite_none_right_eq_some, Option.some_inj]

theorem exists_whiten {c : Config} {B : List Byte} (h : B.length ≤ c.maxLen) : ∃ B', whiten c B = some B' :=
  ⟨_, whiten_eq_some_iff.2 ⟨h, rfl⟩⟩

theorem whiten_length {c : Config} {B B' : List Byte} (h : whiten c B = some B') : B'.length = B.length := by
  obtain ⟨hlen, rfl⟩ := whiten_eq_some_iff.1 h
  exact List.length_zipWith.trans (Nat.min_eq_left hlen)

theorem whiten_getElem? {c : Config} {B B' : List Byte} (h : whiten c B = some B') (i : Nat) :
    B'[i]? = Option.map₂ (· ^^^ ·) B[i]? c.wt[i]? := by
  obtain ⟨-, rfl⟩ := whiten_eq_some_iff.1 h
  rw [List.getElem?_zipWith]
  cases B[i]? <;> cases c.wt[i]? <;> rfl

theorem whiten_getElem?_of_table {c : Config} {B B' : List Byte} (h : whiten c B = some B') {i : Nat} {b w : Byte}
    (hb : B[i]? = some b) (hw : c.wt[i]? = some w) : B'[i]? = some (b ^^^ w) := by
  rw [whiten_getElem? h, hb, hw, Option.map₂_some_some]

theorem zipWith_xor_zipWith_xor {B wt : List Byte} (h : B.length ≤ wt.length) :
    List.zipWith (· ^^^ ·) (List.zipWith (· ^^^ ·) B wt) wt = B := by
  induction B generalizing wt with
  | nil => rfl
  | cons b B ih =>
    cases wt with
    | nil => simp at h
    | cons w wt => simp [ih (Nat.le_of_succ_le_succ h)]

theorem whiten_whiten {c : Config} {B B' : List Byte} (h : whiten c B = some B') : whiten c B' = some B := by
  have hlen := whiten_length h
  obtain ⟨hmax, rfl⟩ := whiten_eq_some_iff.1 h
  exact whiten_eq_some_iff.2 ⟨hlen.trans_le hmax, zipWith_xor_zipWith_xor hmax⟩

theorem zipWith_append_singleton {α β γ : Type} {f : α → β → γ} {as : List α} {bs : List β} {a : α} {b : β}
    (h : bs[as.length]? = some b) : List.zipWith f (as ++ [a]) bs = List.zipWith f as bs ++ [f a b] := by
  induction as generalizing bs with
  | nil =>
    cases bs with
    | nil => simp at h
    | cons b' bs =>
      obtain rfl : b' = b := by simpa using h
      simp
  | cons a' as ih =>
    cases bs with
    | nil => simp at h
    | cons b' bs => simp [ih (bs := bs) (by simpa using h)]

/-- One more byte is paired with the table's next byte, and the bytes before it are whitened as without it. -/
theorem whiten_append_singleton {c : Config} {B B' : List Byte} {b w : Byte} (h : whiten c B = some B')
    (hw : c.wt[B.length]? = some w) : whiten c (B ++ [b]) = some (B' ++ [b ^^^ w]) := by
  obtain ⟨-, rfl⟩ := whiten_eq_some_iff.1 h
  have hlen : (B ++ [b]).length ≤ c.maxLen := by
    rw [List.length_append]
    exact (List.getElem?_eq_some_iff.1 hw).1
  exact whiten_eq_some_iff.2 ⟨hlen, zipWith_append_singleton hw⟩

/-- Settles O30: `whiten` is guarded by its domain alone, and `zipWith` pairs byte `i` with `WT[i]`. -/
theorem whitenXorsByteByByte : Obligations.WhitenXorsByteByByte := by
  intro c B
  refine ⟨fun B' h => ⟨whiten_length h, fun i b w => whiten_getElem?_of_table h⟩, fun ⟨B', h⟩ => ?_, exists_whiten⟩
  exact (whiten_eq_some_iff.1 h).1

/-- Settles O31: byte `i` of a whitened sequence is fixed by byte `i` of the sequence and the table. -/
theorem whitenIsAnInvolution : Obligations.WhitenIsAnInvolution := by
  intro c B hlen
  obtain ⟨B', h⟩ := exists_whiten hlen
  refine ⟨B', h, whiten_whiten h, whiten_length h, fun C C' i hC hi => ?_⟩
  rw [whiten_getElem? hC, whiten_getElem? h, hi]

end Sys2Proof.Machine
end

section
/-! PROOFS. The command `WHT` under every configuration (41_whitening.md R70 to R72): its two outcomes, what the buffer
holds after it, and what a second `WHT` restores. -/

namespace Sys2Proof.Machine

theorem whitenBuffer_of_tooLong {c : Config} {s : State} (h : c.maxLen < s.len.toNat) :
    whitenBuffer c s = .next (s.setErr 3) :=
  if_pos h

theorem whitenBuffer_of_whiten {c : Config} {s : State} {B B' : List Byte} (hB : frame s = some B)
    (hw : whiten c B = some B') :
    whitenBuffer c s = .next ((s.setMem (Memory.writeBytes s.mem 0 B')).setErr 0) := by
  have hlen : ¬c.maxLen < s.len.toNat := by
    rw [← frame_length hB]
    exact (whiten_eq_some_iff.1 hw).1.not_gt
  rw [whitenBuffer, if_neg hlen, withFrame_some hB, hw]
  rfl

theorem exists_whiten_of_frame {c : Config} {s : State} {B : List Byte} (hB : frame s = some B)
    (h : s.len.toNat ≤ c.maxLen) : ∃ B', whiten c B = some B' :=
  exists_whiten (by rwa [frame_length hB])

/-- A sequence stored from index 0 on is what the indices below its length read as. -/
theorem byteAt_writeBytes_zero (s : State) (B : List Byte) (e : BitVec 4) (i : Nat) :
    byteAt ((s.setMem (Memory.writeBytes s.mem 0 B)).setErr e) i = if i < B.length then B[i]? else byteAt s i := by
  simp [byteAt, Memory.read_writeBytes]

/-- A sequence of `LEN` bytes stored from index 0 on is the frame. -/
theorem frame_writeBytes_zero {s : State} {B : List Byte} (h : B.length = s.len.toNat) (e : BitVec 4) :
    frame ((s.setMem (Memory.writeBytes s.mem 0 B)).setErr e) = some B :=
  frame_eq_some.2 ⟨h, fun i hi => by rw [byteAt_writeBytes_zero, if_pos (lt_of_lt_of_eq hi h.symm)]⟩

/-- Storing the old frame over a frame of its length gives back canonical cells. -/
theorem writeBytes_frame_writeBytes {s : State} {B B' : List Byte} (hwf : Memory.wf s.mem = true)
    (hB : frame s = some B) (hlen : B'.length = B.length) :
    Memory.writeBytes (Memory.writeBytes s.mem 0 B') 0 B = s.mem := by
  obtain ⟨hlenB, hbyte⟩ := frame_eq_some.1 hB
  refine Memory.eq_of_read (Memory.writeBytes_wf (Memory.writeBytes_wf hwf 0 B') 0 B) hwf fun i => ?_
  by_cases hi : i < B.length
  · rw [Memory.read_writeBytes, if_pos (by omega)]
    exact (hbyte i (by omega)).symm
  · simp [Memory.read_writeBytes, hi, hlen]

/-- Settles O33: the frame becomes the whitened frame, and no index at or beyond `LEN` is stored to. -/
theorem whtWhitensOrReportsTooLong : Obligations.WhtWhitensOrReportsTooLong := by
  refine ⟨by decide, fun s => rfl, fun c s B hB hlen => ?_, fun c s => whitenBuffer_of_tooLong⟩
  obtain ⟨B', hw⟩ := exists_whiten_of_frame hB hlen
  obtain ⟨hlenB, hbyte⟩ := frame_eq_some.1 hB
  have hlenB' : B'.length = s.len.toNat := (whiten_length hw).trans hlenB
  refine ⟨_, whitenBuffer_of_whiten hB hw, rfl, fun i b w hi hb hwt => ?below, fun i hi => ?beyond,
    rfl, rfl, rfl, rfl, rfl⟩
  case below =>
    rw [byteAt_writeBytes_zero, if_pos (by omega)]
    exact whiten_getElem?_of_table hw ((hbyte i hi).symm.trans hb) hwt
  case beyond => rw [byteAt_writeBytes_zero, if_neg (by omega)]

/-- Settles O34: the second `WHT` whitens the whitened frame, which is the first frame, and stores it where it was. -/
theorem whtTwiceRestores : Obligations.WhtTwiceRestores := by
  intro c s B hwf hB hlen
  obtain ⟨B', hw⟩ := exists_whiten_of_frame hB hlen
  have hlenB' := whiten_length hw
  refine ⟨_, whitenBuffer_of_whiten hB hw, ?_⟩
  have hframe := frame_writeBytes_zero (hlenB'.trans (frame_length hB)) 0
  rw [whitenBuffer_of_whiten hframe (whiten_whiten hw)]
  refine congrArg _ ?_
  exact State.eq_of_fields (writeBytes_frame_writeBytes hwf hB hlenB') rfl rfl rfl rfl rfl rfl

theorem pushByte_of_room {c : Config} {b : Byte} {s : State} (h : s.len.toNat < c.bufCap) :
    pushByte c b s = .next (((s.setMem (Memory.write s.mem s.len.toNat b)).setLen (s.len + 1)).setErr 0) := by
  simp only [pushByte, if_neg (Nat.ne_of_lt h), memWrite_byte b (.inr ⟨rfl, h⟩)]
  rfl

/-- The frame after an append, where `LEN` does not wrap (43_buffer_access.md R93). -/
theorem frame_write_len {s : State} {B : List Byte} (b : Byte) (e : BitVec 4) (hB : frame s = some B)
    (h : s.len.toNat + 1 < 2 ^ 16) :
    frame (((s.setMem (Memory.write s.mem s.len.toNat b)).setLen (s.len + 1)).setErr e) = some (B ++ [b]) := by
  obtain ⟨hlenB, hbyte⟩ := frame_eq_some.1 hB
  have hlen : (s.len + 1).toNat = s.len.toNat + 1 := by
    rw [BitVec.toNat_add]
    exact Nat.mod_eq_of_lt h
  refine frame_eq_some.2 ⟨?_, fun i hi => ?_⟩
  · rw [List.length_append, hlenB]
    exact hlen.symm
  replace hi : i < s.len.toNat + 1 := lt_of_lt_of_eq hi hlen
  refine (Memory.read_write s.mem s.len.toNat i b).trans ?_
  split
  · next h => simp [h, ← hlenB]
  · rw [List.getElem?_append_left (by omega)]
    exact hbyte i (by omega)

/-- Settles O35: `PSH` appends to the whitened frame, and the second `WHT` takes the first one back below the appended
byte. -/
theorem whtPushWht : Obligations.WhtPushWht := by
  intro c s B b w hvalid hB hcap hwt
  obtain ⟨-, hcap8191⟩ := hvalid
  have hlenB := frame_length hB
  obtain ⟨hmax, -⟩ := List.getElem?_eq_some_iff.1 hwt
  obtain ⟨B', hw⟩ := exists_whiten_of_frame hB (Nat.le_of_lt hmax)
  have hlenB' : B'.length = s.len.toNat := (whiten_length hw).trans hlenB
  have hframe := frame_write_len b 0 (frame_writeBytes_zero hlenB' 0) (show s.len.toNat + 1 < 2 ^ 16 by omega)
  have hagain : whiten c (B' ++ [b]) = some (B ++ [b ^^^ w]) :=
    whiten_append_singleton (whiten_whiten hw) (by rwa [hlenB'])
  refine ⟨_, _, _, whitenBuffer_of_whiten hB hw, pushByte_of_room hcap, whitenBuffer_of_whiten hframe hagain, ?_⟩
  exact frame_writeBytes_zero ((whiten_length hagain).trans (frame_length hframe)) 0

end Sys2Proof.Machine
end

section
/-! PROOFS. The bit step in numbers (42_checksum.md R76), and when its results differ (R79 (d)). -/

namespace Sys2Proof.Machine

open Function (Injective)

/-- The top bit of the accumulator before the shift, as a comparison. -/
theorem getLsbD_fifteen_eq_decide (acc : Half) : acc.getLsbD 15 = decide (2 ^ 15 ≤ acc.toNat) :=
  BitVec.msb_eq_decide acc

theorem toNat_shiftLeft_one (acc : Half) : (acc <<< 1).toNat = 2 * acc.toNat % 2 ^ 16 := by
  rw [BitVec.toNat_shiftLeft, Nat.shiftLeft_eq, Nat.pow_one, Nat.mul_comm]

/-- Settles O36: the two branches of `crcBit`, as numbers. -/
theorem crcBitStep : Obligations.CrcBitStep := by
  intro acc d
  rw [crcBit, getLsbD_fifteen_eq_decide]
  split_ifs with h
  · rw [BitVec.toNat_xor, toNat_shiftLeft_one]
    rfl
  · rw [toNat_shiftLeft_one]

/-- Where the constant is odd, bit 0 of the result tells whether it was applied. -/
theorem getLsbD_zero_crcBit {c : Config} (hc : c.crcPoly.getLsbD 0 = true) (acc : Half) (d : Bool) :
    (crcBit c acc d).getLsbD 0 = (acc.getLsbD 15 ^^ d) := by
  rw [crcBit]
  split_ifs with h
  · rw [BitVec.getLsbD_xor, hc, h]
    simp
  · rw [Bool.eq_false_of_not_eq_true h]
    simp

/-- The shift loses the top bit alone. -/
theorem eq_of_shiftLeft_one_eq {acc acc' : Half} (htop : acc.getLsbD 15 = acc'.getLsbD 15)
    (h : acc <<< 1 = acc' <<< 1) : acc = acc' := by
  have hshift := congrArg BitVec.toNat h
  rw [toNat_shiftLeft_one, toNat_shiftLeft_one] at hshift
  rw [getLsbD_fifteen_eq_decide, getLsbD_fifteen_eq_decide, decide_eq_decide] at htop
  exact BitVec.eq_of_toNat_eq (by omega)

theorem crcBit_injective {c : Config} (hc : c.crcPoly.getLsbD 0 = true) (d : Bool) :
    Injective fun acc => crcBit c acc d := by
  intro acc acc' h
  dsimp only at h
  have htop : acc.getLsbD 15 = acc'.getLsbD 15 := by
    have hbit := congrArg (fun v => BitVec.getLsbD v 0) h
    simpa only [getLsbD_zero_crcBit hc, Bool.xor_left_inj] using hbit
  refine eq_of_shiftLeft_one_eq htop ?_
  rw [crcBit, crcBit, htop] at h
  split_ifs at h
  · exact (BitVec.xor_left_inj _).1 h
  · exact h

/-- From one accumulator different data bits lead to different ones. -/
theorem crcBit_ne {c : Config} (hc : c.crcPoly.getLsbD 0 = true) (acc : Half) {d d' : Bool} (h : d ≠ d') :
    crcBit c acc d ≠ crcBit c acc d' := by
  intro heq
  have hbit := congrArg (fun v => BitVec.getLsbD v 0) heq
  simp only [getLsbD_zero_crcBit hc, Bool.xor_right_inj] at hbit
  exact h hbit

theorem foldl_crcBit_injective {c : Config} (hc : c.crcPoly.getLsbD 0 = true) (ds : List Bool) :
    Injective fun acc => ds.foldl (crcBit c) acc := by
  induction ds with
  | nil => exact Function.injective_id
  | cons d ds ih => exact ih.comp (crcBit_injective hc d)

/-- Two bit sequences that differ at exactly one of the places `ps` lead to different accumulators: the step at that
place tells them apart, and the steps after it are injective. -/
theorem foldl_crcBit_ne {c : Config} (hc : c.crcPoly.getLsbD 0 = true) {f g : Nat → Bool} {q : Nat} (hq : f q ≠ g q)
    (heq : ∀ p, p ≠ q → f p = g p) {ps : List Nat} (hnd : ps.Nodup) (hmem : q ∈ ps) (acc : Half) :
    (ps.map f).foldl (crcBit c) acc ≠ (ps.map g).foldl (crcBit c) acc := by
  induction ps generalizing acc with
  | nil => cases hmem
  | cons p ps ih =>
    obtain ⟨hp, hnd⟩ := List.nodup_cons.1 hnd
    rw [List.map_cons, List.map_cons, List.foldl_cons, List.foldl_cons]
    obtain rfl | hpq := eq_or_ne p q
    · have htail : ps.map f = ps.map g :=
        List.map_congr_left fun r hr => heq r (ne_of_mem_of_not_mem hr hp)
      rw [htail]
      exact (foldl_crcBit_injective hc _).ne (crcBit_ne hc acc hq)
    · rw [heq p hpq]
      exact ih hnd (List.mem_of_ne_of_mem hpq.symm hmem) _

end Sys2Proof.Machine
end

section
/-! PROOFS. `checksum16` as a fold over the stream bits (42_checksum.md R78), and a single flipped bit (R79 (d)). -/

namespace Sys2Proof.Machine

theorem streamBit_cons_of_lt {b : Byte} {B : List Byte} {p : Nat} (h : p < 8) :
    streamBit (b :: B) p = b.getLsbD (7 - p) := by
  simp [streamBit, byteOf, Nat.div_eq_of_lt h, Nat.mod_eq_of_lt h]

theorem streamBit_cons_add_eight (b : Byte) (B : List Byte) (p : Nat) :
    streamBit (b :: B) (8 + p) = streamBit B p := by
  simp [streamBit, byteOf, Nat.add_div_left]

/-- The stream bits of a sequence are its first byte's bits from 7 down to 0, then those of the rest. -/
theorem map_streamBit_cons (b : Byte) (B : List Byte) :
    (List.range (8 * (b :: B).length)).map (streamBit (b :: B)) =
      [7, 6, 5, 4, 3, 2, 1, 0].map b.getLsbD ++ (List.range (8 * B.length)).map (streamBit B) := by
  have hbyte : (List.range 8).map (streamBit (b :: B)) = (List.range 8).map fun p => b.getLsbD (7 - p) :=
    List.map_congr_left fun p hp => streamBit_cons_of_lt (List.mem_range.1 hp)
  rw [List.length_cons, Nat.mul_succ, Nat.add_comm, List.range_add, List.map_append, hbyte, List.map_map]
  congr 1
  exact List.map_congr_left fun p _ => streamBit_cons_add_eight b B p

theorem crcFrom_eq_foldl_streamBit (c : Config) (acc : Half) (B : List Byte) :
    crcFrom c acc B = ((List.range (8 * B.length)).map (streamBit B)).foldl (crcBit c) acc := by
  induction B generalizing acc with
  | nil => rfl
  | cons b B ih =>
    rw [map_streamBit_cons, List.foldl_append, ← ih, List.foldl_map]
    rfl

/-- Settles O37: the fold from `CRC_INIT`. -/
theorem checksumFoldsTheStream : Obligations.ChecksumFoldsTheStream :=
  fun c B => crcFrom_eq_foldl_streamBit c c.crcInit B

theorem getLsbD_xor_bit (b : Byte) {i k : Nat} (hi : i < 8) :
    (b ^^^ ((1 <<< k : Nat) : Byte)).getLsbD i = (b.getLsbD i ^^ decide (k = i)) := by
  rw [BitVec.getLsbD_xor, Nat.one_shiftLeft]
  change (_ ^^ (BitVec.ofNat 8 (2 ^ k)).getLsbD i) = _
  rw [BitVec.getLsbD_ofNat, Nat.testBit_two_pow, decide_eq_true hi, Bool.true_and]

/-- Flipping bit `k` of byte `j` flips stream bit `8 * j + (7 - k)` and no other. -/
theorem streamBit_set_xor_bit {B : List Byte} {j k : Nat} {b : Byte} (hb : B[j]? = some b) (hk : k < 8) (p : Nat) :
    streamBit (B.set j (b ^^^ ((1 <<< k : Nat) : Byte))) p = (streamBit B p ^^ decide (p = 8 * j + (7 - k))) := by
  obtain ⟨hj, -⟩ := List.getElem?_eq_some_iff.1 hb
  simp only [streamBit, byteOf, List.getD_eq_getElem?_getD]
  obtain rfl | hne := eq_or_ne j (p / 8)
  · rw [List.getElem?_set_self hj, hb, Option.getD_some, Option.getD_some, getLsbD_xor_bit b (by omega)]
    congr 2
    rw [eq_iff_iff]
    omega
  · rw [List.getElem?_set_ne hne, decide_eq_false (by omega), Bool.xor_false]

theorem crcPoly_block_odd : Config.block.crcPoly.getLsbD 0 = true := by decide

/-- Settles O39: the flipped buffer's stream differs from the buffer's at one place. -/
theorem oneFlippedBitChangesTheChecksum : Obligations.OneFlippedBitChangesTheChecksum := by
  refine ⟨fun d => Finite.injective_iff_bijective.1 (crcBit_injective crcPoly_block_odd d), fun B j k b hb hk => ?_⟩
  obtain ⟨hj, -⟩ := List.getElem?_eq_some_iff.1 hb
  have hbit := streamBit_set_xor_bit hb hk
  rw [checksumFoldsTheStream, checksumFoldsTheStream, List.length_set]
  refine foldl_crcBit_ne crcPoly_block_odd (q := 8 * j + (7 - k)) ?_ (fun p hp => ?_) List.nodup_range
    (List.mem_range.2 (by omega)) _
  · rw [hbit, decide_eq_true rfl, Bool.xor_true]
    exact Bool.not_ne_self _
  · rw [hbit, decide_eq_false hp, Bool.xor_false]

end Sys2Proof.Machine
end

section
/-! PROOFS. A transmitted checksum drives exactly its own accumulator to zero (42_checksum.md R79 (c), R89 (b)). -/

namespace Sys2Proof.Machine

/-- Where the data bit is the accumulator's top bit the step is the shift alone. -/
theorem crcBit_topBit (c : Config) (acc : Half) : crcBit c acc (acc.getLsbD 15) = acc <<< 1 := by
  rw [crcBit, Bool.xor_self, if_neg Bool.false_ne_true]

/-- Fed with its own bits from the top down the accumulator is shifted out: the constant is never applied. -/
theorem foldl_crcBit_ownBits (c : Config) (acc : Half) {n : Nat} (hn : n ≤ 16) :
    ((List.range n).map fun p => acc.getLsbD (15 - p)).foldl (crcBit c) acc = acc <<< n := by
  induction n with
  | zero => simp
  | succ n ih =>
    have htop : (acc <<< n).getLsbD 15 = acc.getLsbD (15 - n) := by
      rw [BitVec.getLsbD_shiftLeft, decide_eq_false (show ¬15 < n by omega)]
      simp
    rw [List.range_succ, List.map_append, List.foldl_append, ih (by omega), BitVec.shiftLeft_add, ← crcBit_topBit c,
      htop]
    rfl

/-- The two transmitted bytes are the bits of `tx` from the top down (42_checksum.md R86). -/
theorem streamBit_pair {hi lo : Byte} {p : Nat} (hp : p < 16) :
    streamBit [hi, lo] p = (txOf hi lo).getLsbD (15 - p) := by
  have hnat : bytesToNat [hi, lo] = (txOf hi lo).toNat := by
    rw [txOf_toNat]
    simp [bytesToNat]
  rw [streamBit_eq_testBit hp, hnat, BitVec.testBit_toNat]
  rfl

theorem crcFrom_txOf (c : Config) (hi lo : Byte) : crcFrom c (txOf hi lo) [hi, lo] = 0 := by
  have hbits : (List.range 16).map (streamBit [hi, lo]) = (List.range 16).map fun p => (txOf hi lo).getLsbD (15 - p) :=
    List.map_congr_left fun p hp => streamBit_pair (List.mem_range.1 hp)
  calc crcFrom c (txOf hi lo) [hi, lo]
      = ((List.range 16).map (streamBit [hi, lo])).foldl (crcBit c) (txOf hi lo) := crcFrom_eq_foldl_streamBit c _ _
    _ = txOf hi lo <<< 16 := by rw [hbits, foldl_crcBit_ownBits c _ le_rfl]
    _ = 0 := BitVec.shiftLeft_eq_zero le_rfl

theorem checksum16_append (c : Config) (B C : List Byte) : checksum16 c (B ++ C) = crcFrom c (checksum16 c B) C :=
  List.foldl_append

/-- A checksum value is the one its high and its low byte transmit. -/
theorem txOf_extractLsb' (v : Half) : txOf (v.extractLsb' 8 8) (v.extractLsb' 0 8) = v := by
  refine BitVec.eq_of_toNat_eq ?_
  rw [txOf_toNat, BitVec.extractLsb'_toNat, BitVec.extractLsb'_toNat, Nat.shiftRight_eq_div_pow, Nat.shiftRight_zero]
  omega

/-- Settles O38: the two bytes transmit the accumulator they are fed to. -/
theorem checksumResidueIsZero : Obligations.ChecksumResidueIsZero := by
  intro c B
  have hzero := crcFrom_txOf c ((checksum16 c B).extractLsb' 8 8) ((checksum16 c B).extractLsb' 0 8)
  rwa [txOf_extractLsb', ← checksum16_append] at hzero

theorem crcFrom_injective {c : Config} (hc : c.crcPoly.getLsbD 0 = true) (B : List Byte) :
    Function.Injective fun acc => crcFrom c acc B := by
  simpa only [crcFrom_eq_foldl_streamBit] using foldl_crcBit_injective hc _

/-- The residue is zero for the transmitted checksum alone. -/
theorem checksum16_append_eq_zero_iff {c : Config} (hc : c.crcPoly.getLsbD 0 = true) (D : List Byte) (hi lo : Byte) :
    checksum16 c (D ++ [hi, lo]) = 0 ↔ checksum16 c D = txOf hi lo := by
  rw [checksum16_append, ← crcFrom_txOf c hi lo]
  exact (crcFrom_injective hc [hi, lo]).eq_iff

end Sys2Proof.Machine
end

section
/-! PROOFS. The commands `CRC`, `CKV` and `FCK` (42_checksum.md R82 to R89). -/

namespace Sys2Proof.Machine

/-- The word of `CKV` as a number: its fields at their places (30_encoding.md R43, R46). -/
theorem encode_ckv_toNat (val : Half) : (encode (.ckv val)).toNat = 0x70000000 + val.toNat := by
  have h : (encode (.ckv val)).toNat = ((7 * 2 ^ 6 + 0) * 2 ^ 6 + 0) * 2 ^ 16 + val.toNat := by
    simp only [encode, wordOf, toNat_append_eq_add]
    rfl
  omega

/-- The verdict is the equality of all 16 bits (42_checksum.md R82). -/
theorem accBit_accept (c : Config) (D : List Byte) (tx : Half) :
    accBit (accept c D tx) = if checksum16 c D = tx then 1 else 0 := by
  simp [accBit, accept]

theorem accBit_accept_eq_one_iff {c : Config} {D : List Byte} {tx : Half} :
    accBit (accept c D tx) = 1 ↔ checksum16 c D = tx := by
  rw [accBit_accept]
  split_ifs with h <;> simp [h]

theorem reportCheck_eq (c : Config) (D : List Byte) (tx : Half) (s : State) :
    reportCheck c D tx s =
      .next (((s.setRes ((checksum16 c D).setWidth 32)).setAcc (if checksum16 c D = tx then 1 else 0)).setErr 0) := by
  rw [reportCheck_eq_next, accBit_accept]

/-- Settles O40: `CRC` runs on the frame. -/
theorem crcComputesTheChecksum : Obligations.CrcComputesTheChecksum :=
  ⟨by decide, fun _ _ => execCrc_of_frame⟩

/-- Settles O41: `CKV` reports the check of the whole frame. -/
theorem ckvChecksAgainstTheValue : Obligations.CkvChecksAgainstTheValue :=
  ⟨encode_ckv_toNat, fun val s B hB => (execCkv_of_frame hB).trans (reportCheck_eq _ B val s)⟩

theorem eq_txOf_iff {v : Half} {hi lo : Byte} : v = txOf hi lo ↔ v.toNat = hi.toNat * 256 + lo.toNat := by
  rw [← BitVec.toNat_inj, txOf_toNat]

/-- Settles O42: `FCK` reports the check of the bytes before the last two, which are the transmitted checksum. -/
theorem fckChecksTheTrailingBytes : Obligations.FckChecksTheTrailingBytes := by
  refine ⟨by decide, fun s D hi lo hB => ?_, fun s => execFck_of_short⟩
  simp only [execFck_of_frame hB, reportCheck_eq, eq_txOf_iff]

/-- A sequence of at least two bytes ends in two bytes. -/
theorem exists_append_pair {B : List Byte} (h : 2 ≤ B.length) : ∃ D hi lo, B = D ++ [hi, lo] := by
  have hlen : (B.drop (B.length - 2)).length = 2 := by
    rw [List.length_drop]
    omega
  obtain ⟨hi, lo, htail⟩ := List.length_eq_two.1 hlen
  exact ⟨B.take (B.length - 2), hi, lo, by rw [← htail, List.take_append_drop]⟩

/-- Settles O43: the last two bytes transmit the checksum of the rest exactly if they drive it to zero. -/
theorem fckAcceptsExactlyZeroResidue : Obligations.FckAcceptsExactlyZeroResidue := by
  intro s B hB hlen
  obtain ⟨D, hi, lo, rfl⟩ := exists_append_pair (hlen.trans_eq (frame_length hB).symm)
  refine ⟨_, (execFck_of_frame hB).trans (reportCheck_eq_next.2 rfl), ?_⟩
  rw [checksum16_append_eq_zero_iff crcPoly_block_odd]
  exact accBit_accept_eq_one_iff

/-- Settles O44: both report the check of `D` against the same transmitted checksum. -/
theorem fckIsCkvOnTheShorterFrame : Obligations.FckIsCkvOnTheShorterFrame := by
  intro s s' t t' D hi lo hB hD hfck hckv
  have htx : BitVec.ofNat 16 (hi.toNat * 256 + lo.toNat) = txOf hi lo := by
    rw [← txOf_toNat, BitVec.ofNat_toNat, BitVec.setWidth_eq]
  rw [execFck_of_frame hB, reportCheck_eq_next] at hfck
  rw [execCkv_of_frame hD, reportCheck_eq_next, htx] at hckv
  subst hfck hckv
  exact ⟨rfl, rfl⟩

end Sys2Proof.Machine
end

section
/-! PROOFS. The commands `CLR`, `PSH` and `RDB` (43_buffer_access.md R92 to R96). -/

namespace Sys2Proof.Machine

/-- A word laid out from its fields as a number (30_encoding.md R43). -/
theorem wordOf_toNat (op : BitVec 4) (nb : BitVec 6) (imm : Half) :
    (wordOf op nb imm).toNat = op.toNat * 2 ^ 28 + nb.toNat * 2 ^ 22 + imm.toNat := by
  have h : (wordOf op nb imm).toNat = ((op.toNat * 2 ^ 6 + nb.toNat) * 2 ^ 6 + 0) * 2 ^ 16 + imm.toNat := by
    simp only [wordOf, toNat_append_eq_add]
    rfl
  rw [h]
  ring

theorem encode_psh_toNat (b : Byte) : (encode (.psh b)).toNat = 0x20000000 + b.toNat := by
  rw [encode, wordOf_toNat, BitVec.toNat_setWidth_of_le (by decide)]
  rfl

theorem encode_rdb_toNat (idx : Half) : (encode (.rdb idx)).toNat = 0x30000000 + idx.toNat := by
  rw [encode, wordOf_toNat]
  rfl

theorem execClr_eq (s : State) : exec .clr s = .next ((emptyBuffer s).setErr 0) := rfl

/-- Settles O19: the emptied buffer has no cell. -/
theorem clrEmptiesTheBuffer : Obligations.ClrEmptiesTheBuffer :=
  ⟨by decide, fun s => ⟨_, execClr_eq s, rfl, rfl, rfl, fun _ => rfl, rfl, rfl, rfl, rfl⟩⟩

/-- Below capacity `LEN` does not wrap (00_scope.md R5). -/
theorem len_add_one_lt {s : State} (h : s.len.toNat < Config.block.bufCap) : s.len.toNat + 1 < 2 ^ 16 := by
  obtain ⟨-, hcap⟩ := Config.block_valid
  omega

/-- Settles O20: below capacity the byte is stored at index `LEN` alone. -/
theorem pshAppendsOrReportsFull : Obligations.PshAppendsOrReportsFull := by
  refine ⟨encode_psh_toNat, fun b s h => ?_, fun b s => execPsh_of_full⟩
  have hlen := len_add_one_lt h
  refine ⟨_, execPsh_of_room h, ?len, rfl, Memory.read_write_same _ _ _, fun i => Memory.read_write_other _ _,
    fun B hB => frame_write_len b 0 hB hlen, rfl, rfl, rfl, rfl⟩
  case len => exact BitVec.toNat_add_of_lt hlen

/-- The eight stream bits from `8 * i` on are byte `i` (40_bitfield_extract.md R62 (d)). -/
theorem extract_byte {B : List Byte} {b : Byte} {i : Nat} (h : B[i]? = some b) :
    extract B (8 * i) 8 = some (b.setWidth 32) := by
  obtain ⟨hi, -⟩ := List.getElem?_eq_some_iff.1 h
  refine extract_eq_some_iff.2 ⟨by omega, BitVec.eq_of_getLsbD_eq fun j hj => ?_⟩
  rw [getLsbD_extractLoop (by decide), BitVec.getLsbD_setWidth, decide_eq_true hj, Bool.true_and]
  by_cases hj8 : j < 8
  · have hplace : (8 * i + (8 - 1 - j)) / 8 = i := by omega
    rw [decide_eq_true hj8, Bool.true_and, (streamBitOfTheNumber B _ b (by rwa [hplace])).1]
    congr 1
    omega
  · rw [decide_eq_false hj8, Bool.false_and, BitVec.getLsbD_of_ge b j (by omega)]

/-- A byte index of at most 8191 has its first stream bit in a command's immediate. -/
theorem toNat_eight_mul {idx : Half} (h : idx.toNat ≤ 8191) : (8 * idx).toNat = 8 * idx.toNat := by
  rw [BitVec.toNat_mul]
  exact Nat.mod_eq_of_lt (show 8 * idx.toNat < 2 ^ 16 by omega)

/-- Settles O21: `RDB` and the `BFX` of its byte end with `E_RANGE` at the same indices, and elsewhere give the same
byte. -/
theorem rdbReadsOrReportsRange : Obligations.RdbReadsOrReportsRange := by
  refine ⟨encode_rdb_toNat, fun idx s b => execRdb_of_byteAt, fun idx s => execRdb_of_beyond,
    fun idx s B hB h => ?_⟩
  have hstart := toNat_eight_mul h
  have hwidth : (8 : BitVec 6).toNat = 8 := rfl
  obtain hbeyond | hin := le_or_gt s.len.toNat idx.toNat
  · rw [execRdb_of_beyond hbeyond, execBfx_of_beyond (by decide) (by omega)]
  · obtain ⟨hlen, hbyte⟩ := frame_eq_some.1 hB
    have hb : B[idx.toNat]? = some B[idx.toNat] := List.getElem?_eq_getElem (by omega)
    have hfield : extract B (8 * idx).toNat 8 = some (B[idx.toNat].setWidth 32) := by rw [hstart, extract_byte hb]
    rw [execRdb_of_byteAt hin ((hbyte _ hin).trans hb),
      execBfx_of_extract (by decide) (by omega) hB hfield]

end Sys2Proof.Machine
end

section
/-! PROOFS. Loading a frame, `LDF`: `CLR` and one `PSH` per byte (43_buffer_access.md R98). -/

namespace Sys2Proof.Machine

theorem execList_cons {i : Instr} {is : List Instr} {s t : State} (h : exec i s = .next t) :
    execList (i :: is) s = execList is t := by
  rw [execList, h]

theorem execList_append {is js : List Instr} {s t : State} (h : execList is s = .next t) :
    execList (is ++ js) s = execList js t := by
  induction is generalizing s with
  | nil => cases h; rfl
  | cons i is ih =>
    cases hi : exec i s with
    | next u =>
      rw [execList_cons hi] at h
      rw [List.cons_append, execList_cons hi, ih h]
    | fault r => simp [execList, hi] at h
    | refused r => simp [execList, hi] at h

theorem loadFrame_append (B C : List Byte) : loadFrame (B ++ C) = loadFrame B ++ C.map .psh := by
  simp [loadFrame]

/-- `t` is reached from `s` with the frame `B` and the code `e`, and `RES` and `ACC` kept. -/
structure Loaded (s : State) (B : List Byte) (e : BitVec 4) (t : State) : Prop where
  frame_eq : frame t = some B
  err_eq : t.err = e
  res_eq : t.res = s.res
  acc_eq : t.acc = s.acc

/-- One `PSH` below capacity makes the loaded frame one byte longer. -/
theorem Loaded.psh {s t : State} {B : List Byte} {e : BitVec 4} (h : Loaded s B e t) (b : Byte)
    (hroom : B.length < Config.block.bufCap) : ∃ u, exec (.psh b) t = .next u ∧ Loaded s (B ++ [b]) 0 u := by
  rw [frame_length h.frame_eq] at hroom
  exact ⟨_, execPsh_of_room hroom, frame_write_len b 0 h.frame_eq (len_add_one_lt hroom), rfl, h.res_eq, h.acc_eq⟩

/-- A sequence of `PSH` for which there is room appends its bytes. -/
theorem Loaded.execList_psh {s t : State} {B C : List Byte} (h : Loaded s B 0 t)
    (hroom : B.length + C.length ≤ Config.block.bufCap) :
    ∃ u, execList (C.map .psh) t = .next u ∧ Loaded s (B ++ C) 0 u := by
  induction C generalizing B t with
  | nil => exact ⟨t, rfl, by rwa [List.append_nil]⟩
  | cons c C ih =>
    rw [List.length_cons] at hroom
    obtain ⟨v, hv, hloaded⟩ := h.psh c (by omega)
    rw [List.map_cons, execList_cons hv, List.append_cons]
    exact ih hloaded (by rw [List.length_append, List.length_singleton]; omega)

/-- At capacity every `PSH` is turned away with `E_FULL` (43_buffer_access.md R94). -/
theorem execList_psh_of_full {C : List Byte} {s : State} (h : s.len.toNat = Config.block.bufCap) (hC : C ≠ []) :
    execList (C.map .psh) s = .next (s.setErr 4) := by
  induction C generalizing s with
  | nil => exact absurd rfl hC
  | cons c C ih =>
    rw [List.map_cons, execList_cons (execPsh_of_full h)]
    obtain rfl | hne := eq_or_ne C []
    · rfl
    · rw [ih (s := s.setErr 4) h hne, State.setErr_setErr]

/-- A frame that fits is loaded from any state: `CLR` leaves the empty frame, and each `PSH` has room. -/
theorem exists_loaded_loadFrame {B : List Byte} (s : State) (h : B.length ≤ Config.block.bufCap) :
    ∃ t, execList (loadFrame B) s = .next t ∧ Loaded s B 0 t := by
  have hclr : Loaded s [] 0 ((emptyBuffer s).setErr 0) := ⟨rfl, rfl, rfl, rfl⟩
  rw [loadFrame, execList_cons (execClr_eq s)]
  exact hclr.execList_psh (by simpa using h)

/-- Of a frame that does not fit the first `BUF_CAP` bytes are loaded, and the others are turned away. -/
theorem exists_loaded_loadFrame_of_tooLong {B : List Byte} (s : State) (h : Config.block.bufCap < B.length) :
    ∃ t, execList (loadFrame B) s = .next t ∧ Loaded s (B.take Config.block.bufCap) 4 t := by
  have htake : (B.take Config.block.bufCap).length = Config.block.bufCap := List.length_take_of_le h.le
  have hrest : B.drop Config.block.bufCap ≠ [] := by
    rw [Ne, List.drop_eq_nil_iff]
    omega
  obtain ⟨t, ht, hloaded⟩ := exists_loaded_loadFrame s htake.le
  have hfull : t.len.toNat = Config.block.bufCap := (frame_length hloaded.frame_eq).symm.trans htake
  refine ⟨t.setErr 4, ?_, hloaded.frame_eq, rfl, hloaded.res_eq, hloaded.acc_eq⟩
  calc execList (loadFrame B) s
      = execList (loadFrame (B.take Config.block.bufCap) ++ (B.drop Config.block.bufCap).map .psh) s := by
        rw [← loadFrame_append, List.take_append_drop]
    _ = execList ((B.drop Config.block.bufCap).map .psh) t := execList_append ht
    _ = .next (t.setErr 4) := execList_psh_of_full hfull hrest

/-- Settles O22: a frame that fits, and one that does not. -/
theorem loadFrameLoadsTheBytes : Obligations.LoadFrameLoadsTheBytes := by
  refine ⟨fun B s h => ?_, fun B s h => ?_⟩
  · obtain ⟨t, ht, hframe, herr, hres, hacc⟩ := exists_loaded_loadFrame s h
    exact ⟨t, ht, (frame_length hframe).symm, hframe, herr, hres, hacc⟩
  · obtain ⟨t, ht, hframe, herr, hres, hacc⟩ := exists_loaded_loadFrame_of_tooLong s h
    exact ⟨t, ht, hframe, herr, hres, hacc⟩

end Sys2Proof.Machine
end

section
/-! PROOFS. Errors (60_exceptions.md section 1 and 2): what a command that ends with an error writes, which code it ends
with, and that the code before it does not matter. -/

namespace Sys2Proof.Machine

/-- A command ends with `E_NONE`, or its one effect is on `ERR` (60_exceptions.md R101, R102). -/
theorem exec_err_cases {i : Instr} {s t : State} (h : exec i s = .next t) : t.err = 0 ∨ SameButErr s t := by
  cases i with
  | clr => obtain rfl := execClr_next h; exact .inl rfl
  | psh b =>
    obtain ⟨-, rfl⟩ | ⟨-, rfl⟩ := execPsh_next h
    · exact .inr rfl
    · exact .inl rfl
  | rdb idx =>
    obtain ⟨-, rfl⟩ | ⟨-, b, -, rfl⟩ := execRdb_next h
    · exact .inr rfl
    · exact .inl rfl
  | bfx sb nb =>
    obtain ⟨-, rfl⟩ | ⟨-, -, rfl⟩ | ⟨-, -, B, v, -, -, rfl⟩ := execBfx_next h
    · exact .inr rfl
    · exact .inr rfl
    · exact .inl rfl
  | wht =>
    obtain ⟨-, rfl⟩ | ⟨-, B, B', -, -, rfl⟩ := execWht_next h
    · exact .inr rfl
    · exact .inl rfl
  | crc => obtain ⟨B, -, rfl⟩ := execCrc_next h; exact .inl rfl
  | ckv val =>
    obtain ⟨B, -, hr⟩ := execCkv_next h
    obtain rfl := reportCheck_eq_next.1 hr
    exact .inl rfl
  | fck =>
    obtain ⟨-, rfl⟩ | ⟨-, D, hi, lo, -, hr⟩ := execFck_next h
    · exact .inr rfl
    · obtain rfl := reportCheck_eq_next.1 hr
      exact .inl rfl

/-- Settles O46: a command that ends with an error is not one that ends with `E_NONE`. -/
theorem errorsLeaveTheStateUntouched : Obligations.ErrorsLeaveTheStateUntouched :=
  fun _ _ _ h herr => (exec_err_cases h).resolve_left herr

/-- Settles O48: each outcome of a command has its code and its cause; a well-formed `BFX` does not end with `E_ILL`. -/
theorem errorCodesAndTheirCauses : Obligations.ErrorCodesAndTheirCauses := by
  intro i s t hwf h
  cases i with
  | clr => obtain rfl := execClr_next h; rfl
  | psh b =>
    obtain ⟨hfull, rfl⟩ | ⟨hroom, rfl⟩ := execPsh_next h
    · exact .inl ⟨rfl, hfull⟩
    · exact .inr ⟨rfl, hroom.ne⟩
  | rdb idx =>
    obtain ⟨hbeyond, rfl⟩ | ⟨hin, b, -, rfl⟩ := execRdb_next h
    · exact .inl ⟨rfl, hbeyond⟩
    · exact .inr ⟨rfl, hin⟩
  | bfx sb nb =>
    obtain ⟨hwide, -⟩ | ⟨-, hbeyond, rfl⟩ | ⟨-, hin, B, v, -, -, rfl⟩ := execBfx_next h
    · exact absurd (of_decide_eq_true hwf) hwide.not_ge
    · exact .inl ⟨rfl, hbeyond⟩
    · exact .inr ⟨rfl, hin⟩
  | wht =>
    obtain ⟨hlong, rfl⟩ | ⟨hfits, B, B', -, -, rfl⟩ := execWht_next h
    · exact .inl ⟨rfl, hlong⟩
    · exact .inr ⟨rfl, hfits⟩
  | crc => obtain ⟨B, -, rfl⟩ := execCrc_next h; rfl
  | ckv val =>
    obtain ⟨B, -, hr⟩ := execCkv_next h
    obtain rfl := reportCheck_eq_next.1 hr
    rfl
  | fck =>
    obtain ⟨hshort, rfl⟩ | ⟨hlen, D, hi, lo, -, hr⟩ := execFck_next h
    · exact .inl ⟨rfl, hshort⟩
    · obtain rfl := reportCheck_eq_next.1 hr
      exact .inr ⟨rfl, hlen⟩

/-- `finish` overwrites `ERR`, so two results that differ in `ERR` alone end a command alike. -/
theorem finish_map_congr {α : Type} (o : Option α) {f g : α → State} (h : ∀ a, (f a).setErr 0 = (g a).setErr 0)
    (why : Fault) : finish (o.map f) why = finish (o.map g) why := by
  cases o with
  | none => rfl
  | some a => exact congrArg _ (h a)

theorem withFrame_congr {k k' : List Byte → Result} (s : State) (h : ∀ B, k B = k' B) :
    withFrame s k = withFrame s k' := by
  rw [funext h]

/-- A store neither reads nor writes `ERR`. -/
theorem memWrite_setErr (c : Config) (s : State) (e : BitVec 4) (addr n : Nat) (v : BitVec (8 * n)) :
    memWrite c (s.setErr e) addr n v = (memWrite c s addr n v).map (·.setErr e) := by
  rw [memWrite, memWrite, apply_ite (Option.map _)]
  rfl

/-- Settles O47: no guard, no frame and no access to the buffer reads `ERR`, and every ending overwrites it. -/
theorem errIsNotSticky : Obligations.ErrIsNotSticky := by
  intro i s e
  cases i with
  | clr => rfl
  | psh b =>
    refine if_congr Iff.rfl rfl ?_
    rw [memWrite_setErr, Option.map_map]
    exact finish_map_congr _ (fun _ => by rfl) _
  | rdb idx => exact if_congr Iff.rfl rfl (finish_map_congr _ (fun _ => by rfl) _)
  | bfx sb nb =>
    exact if_congr Iff.rfl rfl <| if_congr Iff.rfl rfl <|
      withFrame_congr s fun _ => finish_map_congr _ (fun _ => by rfl) _
  | wht => exact if_congr Iff.rfl rfl (withFrame_congr s fun _ => finish_map_congr _ (fun _ => by rfl) _)
  | crc => rfl
  | ckv val => rfl
  | fck => rfl

end Sys2Proof.Machine
end

section
/-! PROOFS. The block never stops (60_exceptions.md R107, 70_reset_and_hazards.md R125): a fault needs a byte below `LEN`
that holds no value, or a `LEN` above `BUF_CAP`. -/

namespace Sys2Proof.Machine

/-- Every command completes where the frame can be read and `LEN` is at most `BUF_CAP`. -/
theorem exec_completes {s : State} {B : List Byte} (hB : frame s = some B)
    (hcap : s.len.toNat ≤ Config.block.bufCap) (i : Instr) : ∃ t, exec i s = .next t := by
  cases i with
  | clr => exact ⟨_, execClr_eq s⟩
  | psh b =>
    obtain hroom | hfull := hcap.lt_or_eq
    · exact ⟨_, execPsh_of_room hroom⟩
    · exact ⟨_, execPsh_of_full hfull⟩
  | rdb idx =>
    obtain hbeyond | hin := le_or_gt s.len.toNat idx.toNat
    · exact ⟨_, execRdb_of_beyond hbeyond⟩
    · obtain ⟨hlen, hbyte⟩ := frame_eq_some.1 hB
      have hb : B[idx.toNat]? = some B[idx.toNat] := List.getElem?_eq_getElem (by omega)
      exact ⟨_, execRdb_of_byteAt hin ((hbyte _ hin).trans hb)⟩
  | bfx sb nb =>
    obtain hwide | hn := lt_or_ge 32 nb.toNat
    · exact ⟨_, execBfx_of_wide hwide⟩
    obtain hbeyond | hin := lt_or_ge (8 * s.len.toNat) (sb.toNat + nb.toNat)
    · exact ⟨_, execBfx_of_beyond hn hbeyond⟩
    · obtain ⟨v, hv⟩ := exists_extract_of_frame hB hn hin
      exact ⟨_, execBfx_of_extract hn hin hB hv⟩
  | wht =>
    obtain hlong | hfits := lt_or_ge Config.block.maxLen s.len.toNat
    · exact ⟨_, execWht_of_tooLong hlong⟩
    · obtain ⟨B', hw⟩ := exists_whiten_of_frame hB hfits
      exact ⟨_, execWht_of_whiten hfits hB hw⟩
  | crc => exact ⟨_, execCrc_of_frame hB⟩
  | ckv val => exact ⟨_, (execCkv_of_frame hB).trans (reportCheck_eq _ B val s)⟩
  | fck =>
    obtain hshort | hlen := lt_or_ge s.len.toNat 2
    · exact ⟨_, execFck_of_short hshort⟩
    · obtain ⟨D, hi, lo, rfl⟩ := exists_append_pair (hlen.trans_eq (frame_length hB).symm)
      exact ⟨_, (execFck_of_frame hB).trans (reportCheck_eq _ D _ s)⟩

theorem Inv.exec_completes {s : State} (h : Inv s) (i : Instr) : ∃ t, exec i s = .next t := by
  obtain ⟨B, hB⟩ := h.frame
  exact Machine.exec_completes hB h.capacity i

/-- The invariant is about the block, not about what the host does next. -/
theorem Inv.setMoves {s : State} (h : Inv s) (ms : List HostMove) : Inv (s.setMoves ms) :=
  ⟨h.cells, h.capacity, h.code⟩

/-- Every interaction of the host completes (70_reset_and_hazards.md R128). -/
theorem Inv.perform_completes {s : State} (h : Inv s) (m : HostMove) : ∃ t, perform m s = .next t := by
  cases m with
  | applyReset => exact ⟨_, rfl⟩
  | read r => exact ⟨_, rfl⟩
  | issue w =>
    simp only [perform, issueWord]
    cases decode w with
    | error why => exact ⟨_, rfl⟩
    | ok i => exact h.exec_completes i

/-- Settles O59: a step waits or performs an interaction, and either completes. -/
theorem theBlockNeverStops : Obligations.TheBlockNeverStops := by
  refine fun s h => ⟨?step, h.exec_completes⟩
  rw [step, stepHost]
  cases s.moves with
  | nil => exact ⟨s, rfl⟩
  | cons m rest => exact (h.setMoves rest).perform_completes m

end Sys2Proof.Machine
end

section
/-! PROOFS. What the commands do in the reset state (70_reset_and_hazards.md R116), whose frame has no byte, and what an
accepted frame is after `FCK` (R121). -/

namespace Sys2Proof.Machine

/-- At reset the buffer is empty (70_reset_and_hazards.md R114). -/
theorem frame_reset : frame State.reset = some [] := rfl

theorem checksum16_nil (c : Config) : checksum16 c [] = c.crcInit := rfl

theorem whiten_nil (c : Config) : whiten c [] = some [] := whiten_eq_some_iff.2 ⟨Nat.zero_le _, rfl⟩

/-- On an empty frame `CKV` succeeds, and accepts the start value of the checksum alone. -/
theorem execCkv_of_frame_nil {s : State} (hB : frame s = some []) (val : Half) :
    ∃ t, exec (.ckv val) s = .next t ∧ t.err = 0 ∧ (t.acc = 1 ↔ val = Config.block.crcInit) := by
  refine ⟨_, (execCkv_of_frame hB).trans (reportCheck_eq_next.2 rfl), rfl, ?_⟩
  rw [← checksum16_nil, eq_comm (a := val)]
  exact accBit_accept_eq_one_iff

/-- Settles O13: `LEN` is 0, so `RDB` and `FCK` end with their errors, and the others run on the empty frame. -/
theorem commandsInTheResetState : Obligations.CommandsInTheResetState := by
  refine ⟨?crc, ?wht, ?bfx, fun _ => execRdb_of_beyond (Nat.zero_le _), execFck_of_short (by decide),
    execCkv_of_frame_nil frame_reset⟩
  case crc => exact execCrc_of_frame frame_reset
  case wht => exact execWht_of_whiten (Nat.zero_le _) frame_reset (whiten_nil _)
  case bfx => exact execBfx_of_extract (Nat.zero_le _) (Nat.zero_le _) frame_reset (extract_zero_width (Nat.zero_le _))

/-- A check that was made decides acceptance by its own verdict: it overwrites both `ERR` and `ACC`. -/
theorem frameAccepted_of_reportCheck {c : Config} {D : List Byte} {tx : Half} {s t : State}
    (h : reportCheck c D tx s = .next t) : FrameAccepted t ↔ checksum16 c D = tx := by
  obtain rfl := reportCheck_eq_next.1 h
  exact (and_iff_right rfl).trans accBit_accept_eq_one_iff

/-- After an error the frame is not accepted, whatever `ACC` was before (70_reset_and_hazards.md R121). -/
theorem not_frameAccepted_setErr {s : State} {e : BitVec 4} (he : e ≠ 0) : ¬FrameAccepted (s.setErr e) :=
  fun h => he h.left

/-- Settles O45: `FCK` either ends with `E_SHORT`, and then the frame has no two trailing bytes, or checks the two bytes
in which the frame ends, and no other two. -/
theorem acceptedFrameHasItsChecksum : Obligations.AcceptedFrameHasItsChecksum := by
  intro s t B hB h
  obtain ⟨hshort, rfl⟩ | ⟨-, D, hi, lo, hD, hr⟩ := execFck_next h
  · refine iff_of_false (not_frameAccepted_setErr (by decide)) ?_
    rintro ⟨D, hi, lo, rfl, -⟩
    rw [← frame_length hB, List.length_append] at hshort
    exact absurd hshort (Nat.le_add_left 2 _).not_gt
  · obtain rfl := Option.some_inj.1 (hB.symm.trans hD)
    rw [frameAccepted_of_reportCheck hr, eq_txOf_iff]
    constructor
    · exact fun hsum => ⟨D, hi, lo, rfl, hsum⟩
    · rintro ⟨D', hi', lo', hsplit, hsum⟩
      obtain ⟨rfl, htail⟩ := List.append_inj' hsplit rfl
      obtain ⟨rfl, rfl⟩ : hi = hi' ∧ lo = lo' := by simpa using htail
      exact hsum

end Sys2Proof.Machine
end

section
/-! PROOFS. The invariant (10_state.md R16, R17, R21): it holds after reset, each update of the state a command makes keeps
it, and so does every step. -/

namespace Sys2Proof.Machine

/-- Settles O57: the reset state has no cell, `LEN` 0 and `E_NONE`. -/
theorem invariantAfterReset : Obligations.InvariantAfterReset :=
  ⟨rfl, Nat.zero_le _, by decide⟩

theorem Inv.resetBlock (s : State) : Inv (resetBlock s) :=
  ⟨invariantAfterReset.cells, invariantAfterReset.capacity, invariantAfterReset.code⟩

theorem Inv.setErr {s : State} (h : Inv s) (e : ErrCode) : Inv (s.setErr (errBits e)) :=
  ⟨h.cells, h.capacity, errBits_le e⟩

theorem Inv.setRes {s : State} (h : Inv s) (v : Word) : Inv (s.setRes v) :=
  ⟨h.cells, h.capacity, h.code⟩

theorem Inv.setAcc {s : State} (h : Inv s) (v : BitVec 1) : Inv (s.setAcc v) :=
  ⟨h.cells, h.capacity, h.code⟩

theorem Inv.setReadback {s : State} (h : Inv s) (v : Option Word) : Inv (s.setReadback v) :=
  ⟨h.cells, h.capacity, h.code⟩

theorem Inv.emptyBuffer {s : State} (h : Inv s) : Inv (emptyBuffer s) :=
  ⟨rfl, Nat.zero_le _, h.code⟩

/-- The stored byte is at the one index that the new `LEN` counts and the old one did not. -/
theorem Inv.push {s : State} (h : Inv s) (hroom : s.len.toNat < Config.block.bufCap) (b : Byte) :
    Inv ((s.setMem (Memory.write s.mem s.len.toNat b)).setLen (s.len + 1)) := by
  have hlen : (s.len + 1).toNat = s.len.toNat + 1 := BitVec.toNat_add_of_lt (len_add_one_lt hroom)
  refine ⟨cells_eq_range (Memory.write_wf h.wf _ b) fun i => ?_, ?_, h.code⟩
  · rw [State.setLen_mem, State.setMem_mem, State.setLen_len, hlen, Memory.read_isSome, Memory.mem_write_fst, h.cells,
      List.mem_range]
    omega
  · rw [State.setLen_len, hlen]
    exact hroom

/-- A sequence of `LEN` bytes stored from index 0 on takes the places of the old frame. -/
theorem Inv.overwrite {s : State} (h : Inv s) {B : List Byte} (hlen : B.length = s.len.toNat) :
    Inv (s.setMem (Memory.writeBytes s.mem 0 B)) := by
  refine ⟨cells_eq_range (Memory.writeBytes_wf h.wf 0 B) fun i => ?_, h.capacity, h.code⟩
  rw [State.setMem_mem, State.setMem_len, ← hlen, Memory.read_writeBytes]
  split
  · simp
  · rw [hlen]
    exact h.byteAt_isSome i

theorem Inv.of_reportCheck {c : Config} {D : List Byte} {tx : Half} {s t : State} (h : Inv s)
    (hr : reportCheck c D tx s = .next t) : Inv t := by
  obtain rfl := reportCheck_eq_next.1 hr
  exact ((h.setRes _).setAcc _).setErr .none

theorem Inv.of_exec {i : Instr} {s t : State} (h : Inv s) (he : exec i s = .next t) : Inv t := by
  cases i with
  | clr => obtain rfl := execClr_next he; exact h.emptyBuffer.setErr .none
  | psh b =>
    obtain ⟨-, rfl⟩ | ⟨hroom, rfl⟩ := execPsh_next he
    · exact h.setErr .full
    · exact (h.push hroom b).setErr .none
  | rdb idx =>
    obtain ⟨-, rfl⟩ | ⟨-, b, -, rfl⟩ := execRdb_next he
    · exact h.setErr .range
    · exact (h.setRes _).setErr .none
  | bfx sb nb =>
    obtain ⟨-, rfl⟩ | ⟨-, -, rfl⟩ | ⟨-, -, B, v, -, -, rfl⟩ := execBfx_next he
    · exact h.setErr .ill
    · exact h.setErr .range
    · exact (h.setRes v).setErr .none
  | wht =>
    obtain ⟨-, rfl⟩ | ⟨-, B, B', hB, hw, rfl⟩ := execWht_next he
    · exact h.setErr .tooLong
    · exact (h.overwrite ((whiten_length hw).trans (frame_length hB))).setErr .none
  | crc => obtain ⟨B, -, rfl⟩ := execCrc_next he; exact (h.setRes _).setErr .none
  | ckv val => obtain ⟨B, -, hr⟩ := execCkv_next he; exact h.of_reportCheck hr
  | fck =>
    obtain ⟨-, rfl⟩ | ⟨-, D, hi, lo, -, hr⟩ := execFck_next he
    · exact h.setErr .short
    · exact h.of_reportCheck hr

/-- Settles O58: a step waits, resets the block, gives a register back, turns an illegal word away, or runs a command. -/
theorem everyStepKeepsTheInvariant : Obligations.EveryStepKeepsTheInvariant := by
  intro s t h hstep
  obtain ⟨-, rfl⟩ | ⟨rest, -, rfl⟩ | ⟨r, rest, -, rfl⟩ | ⟨w, why, rest, -, -, rfl⟩ | ⟨w, i, rest, -, -, he⟩ :=
    step_next hstep
  · exact h
  · exact .resetBlock _
  · exact (h.setMoves rest).setReadback _
  · exact (h.setMoves rest).setErr .ill
  · exact (h.setMoves rest).of_exec he

end Sys2Proof.Machine
end

section
/-! PROOFS. What a step does with the host's next interaction (70_reset_and_hazards.md R128). -/

namespace Sys2Proof.Machine

theorem step_of_moves {s : State} {m : HostMove} {rest : List HostMove} (hm : s.moves = m :: rest) :
    step s = perform m (s.setMoves rest) := by
  rw [step, stepHost, hm]

/-- Settles O8: issuing a legal word is running its command. -/
theorem stepRunsDecodedCommand : Obligations.StepRunsDecodedCommand := by
  intro s w rest i hm hd
  rw [step_of_moves hm, perform, issueWord, hd]

/-- Settles O10: with no interaction left there is none to perform. -/
theorem waitsForTheHost : Obligations.WaitsForTheHost := by
  intro s (hm : s.moves = [])
  rw [step, stepHost, hm]

/-- Settles O12: `resetBlock` reads the host's two fields alone. -/
theorem resetFromAnyState : Obligations.ResetFromAnyState := by
  intro s rest hm
  refine ⟨step_of_moves hm, ?_⟩
  rintro again rfl
  rfl

/-- Settles O14: a host read writes `readback` alone, by the register read. -/
theorem hostReadHasNoSideEffect : Obligations.HostReadHasNoSideEffect := by
  intro s r rest hm
  refine ⟨_, step_of_moves hm, rfl, rfl, rfl, rfl, rfl, ?_, ?_, ?_, ?_, ?_⟩ <;>
  · rintro rfl
    rfl

/-- Settles O28: the width is looked at before the state. -/
theorem bfxWidthAbove32IsIllegal : Obligations.BfxWidthAbove32IsIllegal :=
  fun _ _ _ => execBfx_of_wide

/-- Settles O49: an illegal word ends with `E_ILL`; a `BFX` that was decoded is not too wide, so it ends with `E_RANGE`. -/
theorem goingWrongIsReported : Obligations.GoingWrongIsReported := by
  rintro s ⟨w, rest, hm, ⟨why, hd⟩ | ⟨sb, nb, hd, hbeyond⟩⟩
  · rw [hm]
    exact .inl (step_of_decode_error hm hd)
  · have hwidth : nb.toNat ≤ 32 := of_decide_eq_true (encodeOfDecode w _ hd).2
    rw [hm, stepRunsDecodedCommand s w rest _ hm hd]
    exact .inr (execBfx_of_beyond hwidth hbeyond)

end Sys2Proof.Machine
end

section
/-! PROOFS. What the commands leave unchanged: the host's side in every command (10_state.md R20), `BUF` and `LEN` in the
reading ones (20_memory.md R37), `RES` and `ACC` in the storing ones (43_buffer_access.md, 41_whitening.md). -/

namespace Sys2Proof.Machine

/-- No command touches the host's side. -/
theorem exec_host {i : Instr} {s t : State} (h : exec i s = .next t) : t.moves = s.moves ∧ t.readback = s.readback := by
  cases i with
  | clr => obtain rfl := execClr_next h; exact ⟨rfl, rfl⟩
  | psh b => obtain ⟨-, rfl⟩ | ⟨-, rfl⟩ := execPsh_next h <;> exact ⟨rfl, rfl⟩
  | rdb idx => obtain ⟨-, rfl⟩ | ⟨-, b, -, rfl⟩ := execRdb_next h <;> exact ⟨rfl, rfl⟩
  | bfx sb nb => obtain ⟨-, rfl⟩ | ⟨-, -, rfl⟩ | ⟨-, -, B, v, -, -, rfl⟩ := execBfx_next h <;> exact ⟨rfl, rfl⟩
  | wht => obtain ⟨-, rfl⟩ | ⟨-, B, B', -, -, rfl⟩ := execWht_next h <;> exact ⟨rfl, rfl⟩
  | crc => obtain ⟨B, -, rfl⟩ := execCrc_next h; exact ⟨rfl, rfl⟩
  | ckv val =>
    obtain ⟨B, -, hr⟩ := execCkv_next h
    obtain rfl := reportCheck_eq_next.1 hr
    exact ⟨rfl, rfl⟩
  | fck =>
    obtain ⟨-, rfl⟩ | ⟨-, D, hi, lo, -, hr⟩ := execFck_next h
    · exact ⟨rfl, rfl⟩
    · obtain rfl := reportCheck_eq_next.1 hr
      exact ⟨rfl, rfl⟩

/-- Settles O9: a step takes the interaction off the list before it performs it, and performing it leaves the list. -/
theorem stepTakesOneInteraction : Obligations.StepTakesOneInteraction := by
  intro s t h
  obtain ⟨hm, rfl⟩ | ⟨rest, hm, rfl⟩ | ⟨r, rest, hm, rfl⟩ | ⟨w, why, rest, hm, -, rfl⟩ | ⟨w, i, rest, hm, -, he⟩ :=
    step_next h
  · rw [hm, List.tail_nil]
  · rw [hm]; rfl
  · rw [hm]; rfl
  · rw [hm]; rfl
  · rw [hm]; exact (exec_host he).1

/-- A command that reads stores nothing. -/
theorem exec_frame_of_isReadCommand {i : Instr} {s t : State} (hread : isReadCommand i = true)
    (h : exec i s = .next t) :
    (∀ a, byteAt t a = byteAt s a) ∧ t.len = s.len ∧ t.moves = s.moves ∧ t.readback = s.readback := by
  cases exec_bufferEffect h with
  | kept hmem hlen => exact ⟨fun a => congrArg (Memory.read · a) hmem, hlen, exec_host h⟩
  | emptied => cases hread
  | pushed => cases hread
  | whitened => cases hread

/-- `RDB`, `BFX` and `CRC` read without a verdict, so they keep `ACC` too (10_state.md R22). -/
theorem exec_frame_of_noCheck {i : Instr} {s t : State} (h : exec i s = .next t) (hread : isReadCommand i = true)
    (hckv : ∀ val, i ≠ .ckv val) (hfck : i ≠ .fck) :
    (∀ a, byteAt t a = byteAt s a) ∧ t.len = s.len ∧ t.acc = s.acc ∧ t.moves = s.moves ∧ t.readback = s.readback := by
  obtain ⟨hbyte, hlen, hhost⟩ := exec_frame_of_isReadCommand hread h
  obtain hacc | ⟨val, rfl⟩ | rfl := exec_acc_cases h
  · exact ⟨hbyte, hlen, hacc, hhost⟩
  · exact absurd rfl (hckv val)
  · exact absurd rfl hfck

/-- Settles O50: the reading commands keep the buffer, and the ones that check nothing keep `ACC`. -/
theorem readingCommandsFrame : Obligations.ReadingCommandsFrame := by
  intro i s t h
  cases i with
  | clr => trivial
  | psh b => trivial
  | wht => trivial
  | rdb idx => exact exec_frame_of_noCheck h rfl nofun nofun
  | bfx sb nb => exact exec_frame_of_noCheck h rfl nofun nofun
  | crc => exact exec_frame_of_noCheck h rfl nofun nofun
  | ckv val => exact exec_frame_of_isReadCommand rfl h
  | fck => exact exec_frame_of_isReadCommand rfl h

/-- Storing a whitened frame leaves every index from `LEN` up. -/
theorem byteAt_whitened_of_beyond {c : Config} {s : State} {B B' : List Byte} (hB : frame s = some B)
    (hw : whiten c B = some B') (e : BitVec 4) {i : Nat} (hi : s.len.toNat ≤ i) :
    byteAt ((s.setMem (Memory.writeBytes s.mem 0 B')).setErr e) i = byteAt s i := by
  rw [byteAt_writeBytes_zero, whiten_length hw, frame_length hB, if_neg hi.not_gt]

/-- Settles O51: where a storing command ends with an error its one effect is on `ERR`; elsewhere `PSH` stores at index
`LEN` alone, and `WHT` at the indices of the frame. -/
theorem storingCommandsFrame : Obligations.StoringCommandsFrame := by
  intro i s t h
  cases i with
  | clr => obtain rfl := execClr_next h; exact ⟨rfl, rfl, rfl, rfl⟩
  | psh b =>
    obtain ⟨-, rfl⟩ | ⟨-, rfl⟩ := execPsh_next h
    · exact ⟨rfl, rfl, rfl, rfl, fun _ _ => rfl⟩
    · refine ⟨rfl, rfl, rfl, rfl, fun a ha => ?_⟩
      exact Memory.read_write_other _ _ (ha.resolve_right fun herr => herr rfl)
  | wht =>
    obtain ⟨-, rfl⟩ | ⟨-, B, B', hB, hw, rfl⟩ := execWht_next h
    · exact ⟨rfl, rfl, rfl, rfl, rfl, fun _ _ => rfl⟩
    · refine ⟨rfl, rfl, rfl, rfl, rfl, fun a ha => ?_⟩
      exact byteAt_whitened_of_beyond hB hw 0 (ha.resolve_right fun herr => herr rfl)
  | rdb idx => trivial
  | bfx sb nb => trivial
  | crc => trivial
  | ckv val => trivial
  | fck => trivial

/-- Settles O32: a frame that fits the table has a whitened frame, and storing it makes it the frame. -/
theorem whtCompletes : Obligations.WhtCompletes := by
  intro s B hB hfits
  obtain ⟨B', hw⟩ := exists_whiten_of_frame hB hfits
  have hframe := frame_writeBytes_zero ((whiten_length hw).trans (frame_length hB)) 0
  exact ⟨_, execWht_of_whiten hfits hB hw, hframe.trans hw.symm, rfl, fun _ => byteAt_whitened_of_beyond hB hw 0,
    rfl, rfl, rfl, rfl, rfl⟩

end Sys2Proof.Machine
end

section
/-! PROOFS. What `MemWrite` stores (20_memory.md R32). -/

namespace Sys2Proof.Machine

theorem bytesOfBits_length (n : Nat) (v : BitVec (8 * n)) : (bytesOfBits n v).length = n := by
  rw [bytesOfBits, List.length_map, List.length_range]

theorem bytesOfBits_getElem? {n : Nat} (v : BitVec (8 * n)) {k : Nat} (hk : k < n) :
    (bytesOfBits n v)[k]? = some (v.extractLsb' (8 * (n - k - 1)) 8) := by
  rw [bytesOfBits, List.getElem?_map, List.getElem?_range hk, Option.map_some]

/-- Settles O17: in its domain `MemWrite` stores the bytes of `v` from `addr` on. -/
theorem memWriteIsBigEndian : Obligations.MemWriteIsBigEndian := by
  intro c s addr n v hn hdom
  refine ⟨s.setMem (Memory.writeBytes s.mem addr (bytesOfBits n v)), if_pos ⟨hn, hdom⟩, rfl, fun k hk => ?inside,
    fun i hi => ?outside⟩
  case inside =>
    rw [byteAt, State.setMem_mem, Memory.read_writeBytes, bytesOfBits_length, if_pos (by omega),
      Nat.add_sub_cancel_left, bytesOfBits_getElem? v hk]
  case outside =>
    rw [byteAt, State.setMem_mem, Memory.read_writeBytes, bytesOfBits_length, if_neg (by omega), byteAt]

end Sys2Proof.Machine
end
